-- ==== Sys2Proof/Word.lean ====
section
/-! DEFINITION. The widths TCMIC speaks of: bytes of a serialised ROM image, commands, register values, ROM addresses. -/

namespace Sys2Proof

/-- One byte of a serialised ROM image (20_memory R63). -/
abbrev Byte := BitVec 8

/-- One command: one word of the command ROM (30_encoding R80). -/
abbrev Word := BitVec 32

/-- The value of one register-bank access (20_memory R62). -/
abbrev RegValue := BitVec 16

/-- A word address of the command ROM (20_memory R61). -/
abbrev RomAddr := BitVec 8

end Sys2Proof
end

