-- ==== Sys2Proof/Syntax.lean ====
section
/-! DEFINITION. The eleven commands of TCMIC command set 1 (30_encoding R82), the registers they name and the
pseudo-instructions. One constructor per row of spec/opcode_table.json. -/

namespace Sys2Proof

/-- The seven registers of the bank (10_state R20), named by a command's `r` field (30_encoding R84). -/
inductive Reg where
  | tcnt
  | ocr
  | tctl
  | timsk
  | tifr
  | ddr
  | port
  deriving DecidableEq, Repr

/-- A command. `r` is the 3-bit register index as the word holds it (R84; 7 names no register), `imm` the 16-bit
immediate or mask (R83), `addr` an absolute ROM word address (R83). -/
inductive Instr where
  /-- `RD r`: read a register into `DL` (40_register_access R100) -/
  | rd (r : BitVec 3)
  /-- `WR r, #imm16`: write a register (R101) -/
  | wr (r : BitVec 3) (imm : BitVec 16)
  /-- `BSET r, #imm16`: set the masked bits (R102) -/
  | bset (r : BitVec 3) (imm : BitVec 16)
  /-- `BCLR r, #imm16`: clear the masked bits (R103) -/
  | bclr (r : BitVec 3) (imm : BitVec 16)
  /-- `BTGL r, #imm16`: invert the masked bits (R104) -/
  | btgl (r : BitVec 3) (imm : BitVec 16)
  /-- `DINT`: disable global interrupts (42_interrupt_control R130) -/
  | dint
  /-- `EINT`: enable global interrupts (R131) -/
  | eint
  /-- `WAIT`: enter the low-power wait state (41_sequencing R122) -/
  | wait
  /-- `NOP`: do nothing (R120) -/
  | nop
  /-- `JMP addr8`: unconditional absolute jump (R121) -/
  | jmp (addr : BitVec 8)
  /-- `RETI`: return from the handler (42_interrupt_control R132) -/
  | reti
  deriving DecidableEq, Repr

/-- The five pseudo-instructions of 30_encoding R89; `n` is 0..7. -/
inductive Pseudo where
  | ack
  | outp (n : BitVec 3)
  | high (n : BitVec 3)
  | tgl (n : BitVec 3)
  | irqon
  deriving DecidableEq, Repr

end Sys2Proof
end

