-- ==== Sys2Proof/WellFormed.lean ====
section
/-! DEFINITION. Which commands are well formed: a register operand is one of the seven registers (30_encoding R84, R85
case 3). The widths of the operands are in their types. -/

namespace Sys2Proof

/-- A register operand names a register of the bank: index 7 does not exist (10_state R28). -/
def regOk (r : BitVec 3) : Bool := r != 7

/-- The one check a command can fail (30_encoding R85 case 3). -/
def Instr.wf : Instr → Bool
  | .rd r => regOk r
  | .wr r _ => regOk r
  | .bset r _ => regOk r
  | .bclr r _ => regOk r
  | .btgl r _ => regOk r
  | .dint => true
  | .eint => true
  | .wait => true
  | .nop => true
  | .jmp _ => true
  | .reti => true

end Sys2Proof
end

