-- ==== Sys2Proof/Decode.lean ====
section
/-! DEFINITION. Decoding (30_encoding R81 to R85, R90): total on every word and on every list of bytes, refusing by name;
after it the encoder, from the same tables; the byte order of a serialised word (20_memory R63). -/

namespace Sys2Proof

/-- The eleven legal opcodes of 30_encoding R82. -/
inductive Opcode where
  | rd | wr | bset | bclr | btgl | dint | eint | wait | nop | jmp | reti
  deriving DecidableEq, Repr

/-- The four formats of 30_encoding R81. -/
inductive Format where
  /-- register and 16-bit immediate -/
  | w
  /-- register only -/
  | r
  /-- ROM address -/
  | j
  /-- no operand -/
  | z
  deriving DecidableEq, Repr

/-- Why a word is illegal (30_encoding R85), in the order the checks are made. -/
inductive IllegalWord where
  /-- case (1), cause 1: `op` is 0x0 or 0xC..0xF -/
  | illegalOpcode
  /-- case (2), cause 2: a must-be-zero bit of the format is 1 -/
  | reservedField
  /-- case (3), cause 3: the format has an `r` field and it is 7 -/
  | reservedRegister
  deriving DecidableEq, Repr

/-- Why bytes do not decode: fewer than the four of one command (R80), or an illegal word. -/
inductive DecodeError where
  | truncated
  | illegal (why : IllegalWord)
  deriving DecidableEq, Repr

/-- The opcode map of 30_encoding R82. -/
def Opcode.ofBits (op : BitVec 4) : Option Opcode :=
  match op.toNat with
  | 0x1 => some .rd
  | 0x2 => some .wr
  | 0x3 => some .bset
  | 0x4 => some .bclr
  | 0x5 => some .btgl
  | 0x6 => some .dint
  | 0x7 => some .eint
  | 0x8 => some .wait
  | 0x9 => some .nop
  | 0xA => some .jmp
  | 0xB => some .reti
  | _ => none

/-- The number of an opcode (30_encoding R82). -/
def Opcode.bits : Opcode → BitVec 4
  | .rd => 0x1
  | .wr => 0x2
  | .bset => 0x3
  | .bclr => 0x4
  | .btgl => 0x5
  | .dint => 0x6
  | .eint => 0x7
  | .wait => 0x8
  | .nop => 0x9
  | .jmp => 0xA
  | .reti => 0xB

/-- The format of an opcode (30_encoding R82). -/
def Opcode.format : Opcode → Format
  | .rd => .r
  | .wr | .bset | .bclr | .btgl => .w
  | .jmp => .j
  | .dint | .eint | .wait | .nop | .reti => .z

/-- The must-be-zero bits of a format (30_encoding R81). -/
def Format.mbz : Format → Word
  | .w => 0x08FF0000
  | .r => 0x08FFFFFF
  | .j => 0x0FFFFF00
  | .z => 0x0FFFFFFF

/-- Whether a format has an `r` field (30_encoding R81). -/
def Format.hasReg : Format → Bool
  | .w | .r => true
  | .j | .z => false

/-- The opcode field `w[31:28]`. -/
def opField (w : Word) : BitVec 4 := w.extractLsb' 28 4

/-- The register field `w[26:24]` (R84). -/
def regField (w : Word) : BitVec 3 := w.extractLsb' 24 3

/-- The immediate field `w[15:0]` (R83). -/
def immField (w : Word) : BitVec 16 := w.extractLsb' 0 16

/-- The address field `w[7:0]` (R83). -/
def addrField (w : Word) : BitVec 8 := w.extractLsb' 0 8

/-- The command an opcode makes of its word's operand fields. -/
def Opcode.command (o : Opcode) (w : Word) : Instr :=
  match o with
  | .rd => .rd (regField w)
  | .wr => .wr (regField w) (immField w)
  | .bset => .bset (regField w) (immField w)
  | .bclr => .bclr (regField w) (immField w)
  | .btgl => .btgl (regField w) (immField w)
  | .dint => .dint
  | .eint => .eint
  | .wait => .wait
  | .nop => .nop
  | .jmp => .jmp (addrField w)
  | .reti => .reti

/-- Decode one word: the three checks of 30_encoding R85 in their order (R90), then the command. -/
def decodeWord (w : Word) : Except IllegalWord Instr :=
  match Opcode.ofBits (opField w) with
  | none => .error .illegalOpcode
  | some o =>
    if w &&& o.format.mbz ≠ 0 then .error .reservedField
    else if o.format.hasReg && regField w == 7 then .error .reservedRegister
    else .ok (o.command w)

/-- The four bytes of a serialised word, least significant first (20_memory R63). -/
def bytesOfWord (w : Word) : List Byte :=
  [w.extractLsb' 0 8, w.extractLsb' 8 8, w.extractLsb' 16 8, w.extractLsb' 24 8]

/-- The word of four serialised bytes, the first least significant (20_memory R63). -/
def wordOfBytes (b0 b1 b2 b3 : Byte) : Word := b3 ++ b2 ++ b1 ++ b0

/-- Decode the first command of a serialised image and give back the rest of the bytes. -/
def decode : List Byte → Except DecodeError (Instr × List Byte)
  | b0 :: b1 :: b2 :: b3 :: rest =>
    match decodeWord (wordOfBytes b0 b1 b2 b3) with
    | .ok i => .ok (i, rest)
    | .error why => .error (.illegal why)
  | _ => .error .truncated

/-- Format W: `op`, a zero bit, `r`, eight zero bits, `imm16` (30_encoding R81). -/
def formatW (o : Opcode) (r : BitVec 3) (imm : BitVec 16) : Word := o.bits ++ 0#1 ++ r ++ 0#8 ++ imm

/-- Format R: `op`, a zero bit, `r`, 24 zero bits. -/
def formatR (o : Opcode) (r : BitVec 3) : Word := o.bits ++ 0#1 ++ r ++ 0#24

/-- Format J: `op`, 20 zero bits, `addr8`. -/
def formatJ (o : Opcode) (addr : BitVec 8) : Word := o.bits ++ 0#20 ++ addr

/-- Format Z: `op`, 28 zero bits. -/
def formatZ (o : Opcode) : Word := o.bits ++ 0#28

/-- The opcode of a command (30_encoding R82). -/
def Instr.opcode : Instr → Opcode
  | .rd _ => .rd
  | .wr _ _ => .wr
  | .bset _ _ => .bset
  | .bclr _ _ => .bclr
  | .btgl _ _ => .btgl
  | .dint => .dint
  | .eint => .eint
  | .wait => .wait
  | .nop => .nop
  | .jmp _ => .jmp
  | .reti => .reti

/-- The word of a command (30_encoding R81, R82). -/
def encodeWord : Instr → Word
  | .rd r => formatR .rd r
  | .wr r imm => formatW .wr r imm
  | .bset r imm => formatW .bset r imm
  | .bclr r imm => formatW .bclr r imm
  | .btgl r imm => formatW .btgl r imm
  | .dint => formatZ .dint
  | .eint => formatZ .eint
  | .wait => formatZ .wait
  | .nop => formatZ .nop
  | .jmp addr => formatJ .jmp addr
  | .reti => formatZ .reti

/-- The serialised bytes of a command. -/
def encode (i : Instr) : List Byte := bytesOfWord (encodeWord i)

/-- The command a pseudo-instruction stands for (30_encoding R89). -/
def Pseudo.expand : Pseudo → Instr
  | .ack => .bclr 4 0x0001
  | .outp n => .bset 5 (1 <<< n.toNat)
  | .high n => .bset 6 (1 <<< n.toNat)
  | .tgl n => .btgl 6 (1 <<< n.toNat)
  | .irqon => .bset 3 0x0001

/-- The word whose low `nbits` bits are those of `w` and whose other bits are zero: the host's numbering of an
opcode-table row, every row of which is one 32-bit word. -/
def tableWord (nbits w : Nat) : Word := BitVec.ofNat 32 (w % 2 ^ nbits)

/-- What the decoder reads from the instruction whose bits, numbered as spec/opcode_table.json numbers them, are `w`. -/
def decodeTableWord (nbits w : Nat) : Option Instr :=
  match decode (bytesOfWord (tableWord nbits w)) with
  | .ok (i, _) => some i
  | .error _ => none

end Sys2Proof
end

