-- ==== Sys2Proof/Config.lean ====
section
/-! DEFINITION. What is fixed for one machine (the parameters of 00_scope R4), the agents of R7, and the free values:
constants with no body, so that nothing in Lean can tell their values. -/

namespace Sys2Proof.Config

/-- The three agents of 00_scope R7. Each step is the step of exactly one of them. -/
inductive Agent where
  /-- the `clk` input: takes `CLK` (45_timer R140) -/
  | clock
  /-- the control sequencer: takes `ACCEPT` or `EXEC` when one is enabled (60_exceptions R195) -/
  | sequencer
  /-- the environment asserting `rst`: takes `RESET` (70_reset R230) -/
  | reset
  deriving DecidableEq, Repr, Inhabited

/-- The parameters of 00_scope R4 but the ROM: configuration, written by no step (10_state R42). `PRESCALER` and `LED_MASK`
are derived from these. `threshold` is a plain number so that a value outside 1..65535 can be written down and refused (R9). -/
structure Params where
  /-- `CLOCK_HZ`: read by design-time arithmetic only -/
  clockHz : Rat
  /-- `PS_CODE`: the prescaler select code the canonical ROM writes -/
  psCode : BitVec 3
  /-- `THRESHOLD`: the value the canonical ROM writes into `OCR` -/
  threshold : Nat
  /-- `LED_BIT` -/
  ledBit : Fin 8
  /-- `VEC`: where acceptance sends the sequencer -/
  vec : RomAddr
  /-- `ACK_ON_ENTRY`: whether acceptance clears the pending flag (60_exceptions R197) -/
  ackOnEntry : Bool
  /-- `REG_BASE`: OPEN in the spec, `none` where the host embeds the bank nowhere (20_memory R62) -/
  regBase : Option Nat
  deriving DecidableEq, Repr

/-- The default parameters of 00_scope R4. -/
def defaults : Params where
  clockHz := 16000000
  psCode := 4
  threshold := 62499
  ledBit := 5
  vec := 0x10
  ackOnEntry := true
  regBase := none

/-- One draw of every element that 10_state R41 leaves unspecified after `RESET`. -/
structure ResetDraw where
  tcnt : BitVec 16
  ocr : BitVec 16
  ps : BitVec 3
  ctc : Bool
  ocf : Bool
  ddr : BitVec 8
  port : BitVec 8
  dl : BitVec 16
  rpc : BitVec 8
  fpc : BitVec 8
  psc : BitVec 10
  deriving DecidableEq, Repr, Inhabited

/-- FREE VALUE (log 2): what the elements of 10_state R41 marked unspecified hold after the `RESET` that draws number `n`. -/
opaque resetDraw (n : Nat) : ResetDraw

/-- FREE VALUE (log 3): the agent that takes the turn numbered `n` where the agenda in State names none. -/
opaque freeAgent (n : Nat) : Agent

end Sys2Proof.Config
end

