-- ==== Sys2Proof/Machine/State.lean ====
section
/-! DEFINITION. Everything the spec gives the machine, as plain data: the 18 state elements of 10_state R20, the ROM and
parameters a machine is built with (R42), and the model's own three fields (agenda, draws, trace); the state after reset. -/

namespace Sys2Proof.Machine

/-- What every event of the bus trace carries: the sequencer's values before the step (20_memory R74). -/
structure Stamp where
  pc : RomAddr
  gie : Bool
  isv : Bool
  deriving DecidableEq, Repr

/-- The kind of a register-access event (20_memory R74). -/
inductive BusKind where
  | rd | wr | bset | bclr | btgl
  deriving DecidableEq, Repr

/-- An event of the trace (20_memory R74). -/
inductive Event where
  /-- a register access: the value read (absent for `WR`) and the value passed to `RegWrite` (absent for `RD`) -/
  | bus (kind : BusKind) (reg : Reg) (rd : Option RegValue) (wr : Option RegValue) (stamp : Stamp)
  | dint (stamp : Stamp)
  | eint (stamp : Stamp)
  | wait (stamp : Stamp)
  | reti (stamp : Stamp)
  | accept (stamp : Stamp)
  /-- fault entry with its cause code (60_exceptions R204) -/
  | fault (code : BitVec 3) (stamp : Stamp)
  | reset (stamp : Stamp)
  /-- the compare-match event `Match` (45_timer R142) -/
  | compareMatch (stamp : Stamp)
  deriving DecidableEq, Repr

/-- The five fault causes of 60_exceptions R203. A fault of TCMIC is a next state (R204), not a stop of the model. -/
inductive FaultCause where
  | illegalOpcode
  | reservedField
  | reservedRegister
  | returnOutsideHandler
  | waitInsideHandler
  deriving DecidableEq, Repr

/-- Why the MODEL stops with a fault. -/
inductive Fault where
  /-- Raised by the fetch when a byte of the command at `pc` lies outside the 1024 bytes of the ROM image. No 8-bit `pc`
  reaches it, so no step raises it. SAFE: the model stops where no hardware behaviour is described. -/
  | noSuchRomByte
  deriving DecidableEq, Repr

/-- Why the model gives an instruction no meaning. -/
inductive Refusal where
  /-- Raised by `exec`'s arm of an instruction that has no meaning yet, with its mnemonic; no arm does. SAFE. -/
  | notModelled (mnemonic : String)
  deriving DecidableEq, Repr

/-- The machine's state. The comment of each element names its rule in 10_state.md. -/
structure State where
  /-- `TCNT` (R21) -/
  tcnt : BitVec 16
  /-- `OCR` (R22) -/
  ocr : BitVec 16
  /-- `TCTL.PS` (R23) -/
  ps : BitVec 3
  /-- `TCTL.CTC` (R23) -/
  ctc : Bool
  /-- `TIMSK.OCIE` (R24) -/
  ocie : Bool
  /-- `TIFR.OCF` (R25) -/
  ocf : Bool
  /-- `DDR` (R26) -/
  ddr : BitVec 8
  /-- `PORT` (R27) -/
  port : BitVec 8
  /-- `pc` (R30) -/
  pc : RomAddr
  /-- `DL` (R29) -/
  dl : BitVec 16
  /-- `RPC` (R31) -/
  rpc : RomAddr
  /-- `GIE` (R32) -/
  gie : Bool
  /-- `ISV` (R33) -/
  isv : Bool
  /-- `EIP` (R34) -/
  eip : Bool
  /-- `SLP` (R35) -/
  slp : Bool
  /-- `FLT` (R36) -/
  flt : Bool
  /-- `FC` (R36) -/
  fc : BitVec 3
  /-- `FPC` (R36) -/
  fpc : RomAddr
  /-- `PSC` (R37) -/
  psc : BitVec 10
  /-- the parameters this machine was built with; no step writes them (R42, log 5) -/
  params : Config.Params
  /-- the command ROM as (byte address, byte) cells in canonical form; no step writes it (R42, 20_memory R61, log 6) -/
  rom : List Host.Cell
  /-- MODEL: the agents of the next steps, the first first, as the environment chooses them (00_scope R7, log 3) -/
  agenda : List Config.Agent
  /-- MODEL: the number of the next free value; advanced by every turn of `step` and by every `RESET` (log 2, log 3) -/
  draws : Nat
  /-- MODEL: the bus trace, oldest event first (20_memory R74, log 8) -/
  trace : List Event
  deriving DecidableEq, Repr

/-- The machine with parameters `p` and ROM cells `rom` right after reset. `pc`, `GIE`, `ISV`, `EIP`, `SLP`, `FLT`, `FC`,
`OCIE` are as 10_state R41 says. DESIGN CHOICE (log 1): every element R41 leaves unspecified is 0 here; the step `RESET`
draws them. It checks nothing: `State.build` is what makes a machine from parameters and an image, or refuses to (00_scope
R9, log 12). -/
def State.boot (p : Config.Params) (rom : List Host.Cell) : State where
  tcnt := 0
  ocr := 0
  ps := 0
  ctc := false
  ocie := false
  ocf := false
  ddr := 0
  port := 0
  pc := 0x00
  dl := 0
  rpc := 0
  gie := false
  isv := false
  eip := false
  slp := false
  flt := false
  fc := 0
  fpc := 0
  psc := 0
  params := p
  rom := rom
  agenda := []
  draws := 0
  trace := []

/-- The machine right after reset, with the default parameters of 00_scope R4; its ROM lists nothing, so it reads as the
default image ROM-A (log 6). -/
def State.reset : State := State.boot Config.defaults []

end Sys2Proof.Machine
end

