-- ==== Sys2Proof/Machine/Operands.lean ====
section
/-! DEFINITION. The one operand form of a register-access command, register-direct (40_register_access R106), and the
access functions of the bank `RegRead` and `RegWrite` (20_memory R73); where and as which bytes a host may see the bank (R62
to R64). -/

namespace Sys2Proof.Machine

/-- The register an index names (30_encoding R84); index 7 names none (10_state R28). -/
def regOfIndex (r : BitVec 3) : Option Reg :=
  match r.toNat with
  | 0 => some .tcnt
  | 1 => some .ocr
  | 2 => some .tctl
  | 3 => some .timsk
  | 4 => some .tifr
  | 5 => some .ddr
  | 6 => some .port
  | _ => none

/-- The index of a register (10_state R20). -/
def regIndex : Reg → BitVec 3
  | .tcnt => 0
  | .ocr => 1
  | .tctl => 2
  | .timsk => 3
  | .tifr => 4
  | .ddr => 5
  | .port => 6

/-- One bit as a 16-bit register value: `zext_16` of 20_memory R73. -/
def bitValue (b : Bool) : RegValue := if b then 1 else 0

/-- `RegRead` (20_memory R73): the value of a register, reserved bits 0; it changes nothing (R66). -/
def regRead (s : State) : Reg → RegValue
  | .tcnt => s.tcnt
  | .ocr => s.ocr
  | .tctl => ((BitVec.ofBool s.ctc) ++ s.ps).zeroExtend 16
  | .timsk => bitValue s.ocie
  | .tifr => bitValue s.ocf
  | .ddr => s.ddr.zeroExtend 16
  | .port => s.port.zeroExtend 16

/-- `RegWrite` (20_memory R73): bits the register does not implement are ignored; a write to `TIFR` can only clear `OCF`. -/
def regWrite (s : State) (reg : Reg) (v : RegValue) : State :=
  match reg with
  | .tcnt => { s with tcnt := v }
  | .ocr => { s with ocr := v }
  | .tctl => { s with ps := v.extractLsb' 0 3, ctc := v.getLsbD 3 }
  | .timsk => { s with ocie := v.getLsbD 0 }
  | .tifr => { s with ocf := s.ocf && v.getLsbD 0 }
  | .ddr => { s with ddr := v.extractLsb' 0 8 }
  | .port => { s with port := v.extractLsb' 0 8 }

/-- The byte address at which a host that embeds the bank sees a register: `REG_BASE + 2*i` (20_memory R62), where the
parameter `REG_BASE` is given. -/
def hostAddress (p : Config.Params) (reg : Reg) : Option Nat :=
  p.regBase.map fun base => base + 2 * (regIndex reg).toNat

/-- The register a host access of `width` bytes at byte address `a` reaches. An access that is not a 16-bit access at an
even offset `2*i`, `i` in 0..6, is refused: `none` (20_memory R64). DESIGN CHOICE (log 16): where `REG_BASE` is open no access
reaches the bank. -/
def hostRegister (p : Config.Params) (a width : Nat) : Option Reg :=
  match p.regBase with
  | none => none
  | some base =>
    if width = 2 ∧ base ≤ a ∧ (a - base) % 2 = 0 ∧ (a - base) / 2 < 8 then
      regOfIndex (BitVec.ofNat 3 ((a - base) / 2))
    else none

/-- The bytes of a serialised register value, the one at the lower address first: it holds bits 7:0 (20_memory R63). -/
def bytesOfReg (v : RegValue) : List Byte := [v.extractLsb' 0 8, v.extractLsb' 8 8]

/-- The register value of two serialised bytes, `b0` from the lower address (20_memory R63). -/
def regOfBytes (b0 b1 : Byte) : RegValue := b1 ++ b0

/-- The bytes that a host access of `width` bytes at byte address `a` sees in the embedded bank, the lower address first
(20_memory R62, R63); `none` where the access is refused (R64). -/
def hostBytes (s : State) (a width : Nat) : Option (List Byte) :=
  (hostRegister s.params a width).map fun reg => bytesOfReg (regRead s reg)

end Sys2Proof.Machine
end

