-- ==== Sys2Proof/Machine/Flags.lean ====
section
/-! DEFINITION. The signals derived from the flags: the interrupt request, which sequencer step is enabled, the pins.
TCMIC has no arithmetic condition codes (10_state R43). -/

namespace Sys2Proof.Machine

/-- `irq = TIMSK.OCIE and TIFR.OCF` (10_state R39). -/
def irq (s : State) : Bool := s.ocie && s.ocf

/-- `accept_ok` (60_exceptions R195): the sequencer's step is `ACCEPT`. -/
def acceptOk (s : State) : Bool := !s.flt && s.gie && !s.eip && !s.isv && irq s

/-- `exec_ok` (60_exceptions R195): the sequencer's step is `EXEC`. -/
def execOk (s : State) : Bool := !s.flt && !s.slp && !acceptOk s

/-- The level of a pin (10_state R38): driven low or high, or not driven. -/
inductive Pin where
  | low
  | high
  /-- not driven; what it then reads as outside the block is not specified (log 17) -/
  | z
  deriving DecidableEq, Repr

/-- `pin[i]` (10_state R38): `PORT[i]` where `DDR[i]` is 1, else not driven. -/
def pin (s : State) (i : Fin 8) : Pin :=
  if s.ddr.getLsbD i.val then (if s.port.getLsbD i.val then .high else .low) else .z

/-- The source's one digital output line `pin[LED_BIT]`, what a run shows after each step (00_scope R8). -/
def led (s : State) : Pin := pin s s.params.ledBit

end Sys2Proof.Machine
end

