-- ==== Sys2Proof/Machine/Rom.lean ====
section
/-! DEFINITION. The canonical command ROMs (46_canonical_rom) and the ROM as bytes: what an unlisted address reads as,
reads and writes of the canonical cell list, words, whole images. No step writes the ROM; writing it is programming a
machine before it runs. -/

namespace Sys2Proof.Machine

/-- The LED mask `M = 1 << LED_BIT` (00_scope R4). -/
def ledMask (p : Config.Params) : BitVec 16 := 1 <<< p.ledBit.val

/-- The mode and prescaler mask `C = 0x0008 or PS_CODE` (46_canonical_rom R160). -/
def modeMask (p : Config.Params) : BitVec 16 := 0x0008 ||| p.psCode.zeroExtend 16

/-- The threshold `T` as the 16-bit immediate of `WR OCR` (R160). -/
def thresholdWord (p : Config.Params) : BitVec 16 := BitVec.ofNat 16 p.threshold

/-- A ROM word that an image does not program (20_memory R61). -/
def blankWord : Word := 0xFFFFFFFF

/-- Addresses 0x00 to 0x0B of both canonical images: initialization and idle loop (R160, R166). -/
def initWords (p : Config.Params) : List Word :=
  [0x20000000,
   0x22000000,
   0x21000000 ||| (thresholdWord p).zeroExtend 32,
   0x32000000 ||| (modeMask p).zeroExtend 32,
   0x44000001,
   0x35000000 ||| (ledMask p).zeroExtend 32,
   0x60000000,
   0x33000001,
   0x70000000,
   0x36000000 ||| (ledMask p).zeroExtend 32,
   0x80000000,
   0xA000000A]

/-- The handler of ROM-A (R160). -/
def handlerAWords (p : Config.Params) : List Word :=
  [0x56000000 ||| (ledMask p).zeroExtend 32,
   0xB0000000]

/-- The handler of ROM-B, which acknowledges the flag itself (R166). -/
def handlerBWords (p : Config.Params) : List Word :=
  [0x56000000 ||| (ledMask p).zeroExtend 32,
   0x44000001,
   0xB0000000]

/-- The words of an image: `init` from address 0x00, `handler` from `vec`, blank words elsewhere. `init` wins where they
meet, which no machine that is built has (00_scope R9, log 13). -/
def imageOf (init handler : List Word) (vec : RomAddr) (a : RomAddr) : Word :=
  match init[a.toNat]? with
  | some w => w
  | none => (handler[(a - vec).toNat]?).getD blankWord

/-- Image ROM-A (46_canonical_rom R160), the default value of the parameter `ROM` (00_scope R4). -/
def romA (p : Config.Params) (a : RomAddr) : Word := imageOf (initWords p) (handlerAWords p) p.vec a

/-- Image ROM-B (R166). -/
def romB (p : Config.Params) (a : RomAddr) : Word := imageOf (initWords p) (handlerBWords p) p.vec a

/-- A command ROM to build a machine with (00_scope R4): its 256 words, how many of them from address 0x00 on are its
initialization and idle code (R9), and how many from `VEC` on are its handler. DESIGN CHOICE (log 18): that this code is one
block from address 0x00 and that both lengths are declared with the image, not found from its words, which R9 leaves open. -/
structure Image where
  word : RomAddr → Word
  codeLength : Nat
  handlerLength : Nat

/-- ROM-A as an image (R160). -/
def imageA (p : Config.Params) : Image := ⟨romA p, (initWords p).length, (handlerAWords p).length⟩

/-- ROM-B as an image (R166). -/
def imageB (p : Config.Params) : Image := ⟨romB p, (initWords p).length, (handlerBWords p).length⟩

/-- The number of bytes of the serialised ROM: 256 words of 4 bytes (20_memory R61, R63). -/
def Memory.size : Nat := 1024

/-- Byte `k` of a serialised word, 0 the lowest address: bits `8k+7 : 8k` (20_memory R63). -/
def byteOfWord (w : Word) (k : Nat) : Byte := w.extractLsb' (8 * k) 8

/-- What an address the cell list does not name reads as: the default image ROM-A, serialised (log 6). -/
def Memory.unlisted (p : Config.Params) (a : Nat) : Byte := byteOfWord (romA p (BitVec.ofNat 8 (a / 4))) (a % 4)

/-- The byte a cell list names at an address. -/
def Memory.lookup : List Host.Cell → Nat → Option Byte
  | [], _ => none
  | (k, b) :: rest, a => if a = k then some b else Memory.lookup rest a

/-- The byte at an address of the ROM, listed or not. -/
def Memory.byteAt (p : Config.Params) (m : List Host.Cell) (a : Nat) : Byte :=
  (Memory.lookup m a).getD (Memory.unlisted p a)

/-- One byte of the ROM; `none` outside the image (log 10). -/
def Memory.read (p : Config.Params) (m : List Host.Cell) (a : Nat) : Option Byte :=
  if a < Memory.size then some (Memory.byteAt p m a) else none

/-- The cell list with address `a` no longer named. -/
def Memory.erase : List Host.Cell → Nat → List Host.Cell
  | [], _ => []
  | (k, b) :: rest, a => if k = a then Memory.erase rest a else (k, b) :: Memory.erase rest a

/-- The cell list with byte `b` named at `a`, kept in rising order (for a list that does not name `a`). -/
def Memory.insert : List Host.Cell → Nat → Byte → List Host.Cell
  | [], a, b => [(a, b)]
  | (k, c) :: rest, a, b => if a < k then (a, b) :: (k, c) :: rest else (k, c) :: Memory.insert rest a b

/-- The cell list that reads `b` at `a` and is otherwise as before; the value an unlisted address reads as is not listed. -/
def Memory.put (p : Config.Params) (m : List Host.Cell) (a : Nat) (b : Byte) : List Host.Cell :=
  if b = Memory.unlisted p a then Memory.erase m a else Memory.insert (Memory.erase m a) a b

/-- Programming one byte of the ROM; `none` outside the image. -/
def Memory.write (p : Config.Params) (m : List Host.Cell) (a : Nat) (b : Byte) : Option (List Host.Cell) :=
  if a < Memory.size then some (Memory.put p m a b) else none

/-- Addresses strictly rising, each above `lo` where one is given. -/
def Memory.rising : Option Nat → List Host.Cell → Bool
  | _, [] => true
  | none, (k, _) :: rest => Memory.rising (some k) rest
  | some lo, (k, _) :: rest => decide (lo < k) && Memory.rising (some k) rest

/-- The canonical form: addresses strictly rising and inside the image, no cell equal to what an unlisted address reads. -/
def Memory.wf (p : Config.Params) (m : List Host.Cell) : Bool :=
  Memory.rising none m && m.all fun c => decide (c.1 < Memory.size) && c.2 != Memory.unlisted p c.1

/-- `MemRead(a, 4) = ROM[a]` (20_memory R61): the word whose four bytes stand at byte addresses `4a` to `4a+3`. -/
def Memory.readWord (p : Config.Params) (m : List Host.Cell) (a : RomAddr) : Option Word := do
  let b0 ← Memory.read p m (4 * a.toNat)
  let b1 ← Memory.read p m (4 * a.toNat + 1)
  let b2 ← Memory.read p m (4 * a.toNat + 2)
  let b3 ← Memory.read p m (4 * a.toNat + 3)
  pure (b3 ++ b2 ++ b1 ++ b0)

/-- Programming one word of the ROM: its four bytes, the lowest first (20_memory R63). -/
def Memory.putWord (p : Config.Params) (m : List Host.Cell) (a : RomAddr) (w : Word) : List Host.Cell :=
  let m0 := Memory.put p m (4 * a.toNat) (byteOfWord w 0)
  let m1 := Memory.put p m0 (4 * a.toNat + 1) (byteOfWord w 1)
  let m2 := Memory.put p m1 (4 * a.toNat + 2) (byteOfWord w 2)
  Memory.put p m2 (4 * a.toNat + 3) (byteOfWord w 3)

/-- Programming a run of words from address `a` on, wrapping after 0xFF. -/
def Memory.putWords (p : Config.Params) (m : List Host.Cell) (a : RomAddr) : List Word → List Host.Cell
  | [] => m
  | w :: rest => Memory.putWords p (Memory.putWord p m a w) (a + 1) rest

/-- The cells of a whole image: every byte that differs from what an unlisted address reads as. -/
def Memory.ofImage (p : Config.Params) (image : RomAddr → Word) : List Host.Cell :=
  ((List.range Memory.size).map fun a => (a, byteOfWord (image (BitVec.ofNat 8 (a / 4))) (a % 4))).filter
    fun c => c.2 != Memory.unlisted p c.1

/-- The word at ROM address `a` of a machine. -/
def romWord (s : State) (a : RomAddr) : Option Word := Memory.readWord s.params s.rom a

/-- One byte of a machine's ROM by byte address. -/
def romByte (s : State) (a : Nat) : Option Byte := Memory.read s.params s.rom a

end Sys2Proof.Machine
end

