-- ==== Sys2Proof/Machine/Ops.lean ====
section
/-! DEFINITION. The named operations the meanings share: the trace, completing a command, the register accesses, entering a
fault (60_exceptions R204), entering the handler (R196) and returning from it (R198), resetting (70_reset R230). -/

namespace Sys2Proof.Machine

/-- The values a trace event carries: the sequencer's before the step (20_memory R74). -/
def State.stamp (s : State) : Stamp := ⟨s.pc, s.gie, s.isv⟩

/-- `emit`: append an event to the trace (00_scope R6). -/
def emit (e : Event) (s : State) : State := { s with trace := s.trace ++ [e] }

/-- The end of every command that neither jumps nor sets `EIP`: `pc <- (pc + 1) mod 256` (10_state R30) and `EIP <- 0` (the
wrapper of 30_encoding R90). -/
def complete (s : State) : State := { s with pc := s.pc + 1, eip := false }

/-- The code of a cause as `FC` records it (60_exceptions R203). -/
def FaultCause.code : FaultCause → BitVec 3
  | .illegalOpcode => 1
  | .reservedField => 2
  | .reservedRegister => 3
  | .returnOutsideHandler => 4
  | .waitInsideHandler => 5

/-- Fault entry (60_exceptions R204): `FLT`, `FC` and `FPC` are written and nothing else; the command has no effect. -/
def raiseFault (c : FaultCause) (s : State) : State :=
  emit (.fault c.code s.stamp) { s with flt := true, fc := c.code, fpc := s.pc }

/-- `ACCEPT`: handler entry (60_exceptions R196), with the acknowledgment policy of R197. -/
def enterHandler (s : State) : State :=
  emit (.accept s.stamp)
    { s with
      rpc := s.pc
      pc := s.params.vec
      isv := true
      gie := false
      slp := false
      eip := false
      ocf := if s.params.ackOnEntry then false else s.ocf }

/-- The effect of `RETI` (42_interrupt_control R132, 60_exceptions R198): return to the saved address with interrupts
enabled; neither `SLP` nor `OCF` is touched. -/
def leaveHandler (s : State) : State :=
  emit (.reti s.stamp) { s with pc := s.rpc, isv := false, gie := true, eip := false }

/-- The read-modify-write of a bit command, one indivisible step (20_memory R65): `new` of the value read is passed to
`RegWrite`, both are in the trace (40_register_access R102 to R104). -/
def readModifyWrite (kind : BusKind) (reg : Reg) (new : RegValue) (s : State) : State :=
  emit (.bus kind reg (some (regRead s reg)) (some new) s.stamp) (complete (regWrite s reg new))

/-- Every element of 10_state R41 after a `RESET` whose unspecified elements hold the draw `d`; the parameters and the ROM
are not state and keep their values (R42). -/
def applyReset (d : Config.ResetDraw) (s : State) : State :=
  { s with
    tcnt := d.tcnt
    ocr := d.ocr
    ps := d.ps
    ctc := d.ctc
    ocie := false
    ocf := d.ocf
    ddr := d.ddr
    port := d.port
    pc := 0x00
    dl := d.dl
    rpc := d.rpc
    gie := false
    isv := false
    eip := false
    slp := false
    flt := false
    fc := 0
    fpc := d.fpc
    psc := d.psc }

/-- `RESET` (70_reset R230): a fresh draw, the one numbered `draws`, which the step itself uses up so that the next reset of
any run has another (log 2); and the event `Reset` in the trace. -/
def resetStep (s : State) : State :=
  emit (.reset s.stamp) (applyReset (Config.resetDraw s.draws) { s with draws := s.draws + 1 })

end Sys2Proof.Machine
end

