-- ==== Sys2Proof/Machine/InterruptControl.lean ====
section
/-! DEFINITION. The interrupt-control commands (42_interrupt_control R130 to R132). -/

namespace Sys2Proof.Machine

/-- `DINT` (R130): `GIE <- 0`. -/
def execDint (s : State) : Host.Outcome State Fault Refusal :=
  .next (emit (.dint s.stamp) (complete { s with gie := false }))

/-- `EINT` (R131): `GIE <- 1`, and `EIP <- 1` so that one more command executes before any acceptance. -/
def execEint (s : State) : Host.Outcome State Fault Refusal :=
  .next (emit (.eint s.stamp) { complete { s with gie := true } with eip := true })

/-- `RETI` (R132): return from the handler; fault cause 4 outside it. -/
def execReti (s : State) : Host.Outcome State Fault Refusal :=
  if s.isv then .next (leaveHandler s) else .next (raiseFault .returnOutsideHandler s)

end Sys2Proof.Machine
end

