-- ==== Sys2Proof/Machine/RegisterAccess.lean ====
section
/-! DEFINITION. The register-access commands (40_register_access R100 to R106). A register index that names no register is
fault cause 3 (60_exceptions R203), which decoding finds first (30_encoding R90, log 9). -/

namespace Sys2Proof.Machine

/-- `RD r` (R100): `DL <- RegRead(r)`. -/
def execRd (r : BitVec 3) (s : State) : Host.Outcome State Fault Refusal :=
  match regOfIndex r with
  | none => .next (raiseFault .reservedRegister s)
  | some reg =>
    .next (emit (.bus .rd reg (some (regRead s reg)) none s.stamp) (complete { s with dl := regRead s reg }))

/-- `WR r, #imm16` (R101): `RegWrite(r, imm16)`. -/
def execWr (r : BitVec 3) (imm : BitVec 16) (s : State) : Host.Outcome State Fault Refusal :=
  match regOfIndex r with
  | none => .next (raiseFault .reservedRegister s)
  | some reg => .next (emit (.bus .wr reg none (some imm) s.stamp) (complete (regWrite s reg imm)))

/-- `BSET r, #imm16` (R102): `RegWrite(r, old or imm16)`. -/
def execBset (r : BitVec 3) (imm : BitVec 16) (s : State) : Host.Outcome State Fault Refusal :=
  match regOfIndex r with
  | none => .next (raiseFault .reservedRegister s)
  | some reg => .next (readModifyWrite .bset reg (regRead s reg ||| imm) s)

/-- `BCLR r, #imm16` (R103): `RegWrite(r, old and not imm16)`. -/
def execBclr (r : BitVec 3) (imm : BitVec 16) (s : State) : Host.Outcome State Fault Refusal :=
  match regOfIndex r with
  | none => .next (raiseFault .reservedRegister s)
  | some reg => .next (readModifyWrite .bclr reg (regRead s reg &&& ~~~imm) s)

/-- `BTGL r, #imm16` (R104): `RegWrite(r, old xor imm16)`. -/
def execBtgl (r : BitVec 3) (imm : BitVec 16) (s : State) : Host.Outcome State Fault Refusal :=
  match regOfIndex r with
  | none => .next (raiseFault .reservedRegister s)
  | some reg => .next (readModifyWrite .btgl reg (regRead s reg ^^^ imm) s)

end Sys2Proof.Machine
end

