-- ==== Sys2Proof/Machine/Sequencing.lean ====
section
/-! DEFINITION. The sequencing commands (41_sequencing R120 to R122). -/

namespace Sys2Proof.Machine

/-- `NOP` (R120): only the pc advances. -/
def execNop (s : State) : Host.Outcome State Fault Refusal := .next (complete s)

/-- `JMP addr8` (R121). -/
def execJmp (addr : BitVec 8) (s : State) : Host.Outcome State Fault Refusal :=
  .next { s with pc := addr, eip := false }

/-- `WAIT` (R122): sleep at the next address; fault cause 5 inside the handler. -/
def execWait (s : State) : Host.Outcome State Fault Refusal :=
  if s.isv then .next (raiseFault .waitInsideHandler s)
  else .next (emit (.wait s.stamp) (complete { s with slp := true }))

end Sys2Proof.Machine
end

