-- ==== Sys2Proof/Machine/Dispatch.lean ====
section
/-! DEFINITION. One arm per command, each one call of its meaning. -/

namespace Sys2Proof.Machine

def exec (i : Instr) (s : State) : Host.Outcome State Fault Refusal :=
  match i with
  | .rd r => Sys2Proof.Machine.execRd r s
  | .wr r imm => Sys2Proof.Machine.execWr r imm s
  | .bset r imm => Sys2Proof.Machine.execBset r imm s
  | .bclr r imm => Sys2Proof.Machine.execBclr r imm s
  | .btgl r imm => Sys2Proof.Machine.execBtgl r imm s
  | .dint => Sys2Proof.Machine.execDint s
  | .eint => Sys2Proof.Machine.execEint s
  | .wait => Sys2Proof.Machine.execWait s
  | .nop => Sys2Proof.Machine.execNop s
  | .jmp addr => Sys2Proof.Machine.execJmp addr s
  | .reti => Sys2Proof.Machine.execReti s

end Sys2Proof.Machine
end

