-- ==== Sys2Proof/Machine/Timer.lean ====
section
/-! DEFINITION. The timer unit (45_timer): the prescaler codes, the tick with its compare match, the clock step. -/

namespace Sys2Proof.Machine

/-- `div(PS)` (45_timer R141): code 0 is stopped, codes 6 and 7 are reserved and behave as stopped (R145). -/
def divisor (ps : BitVec 3) : Option Nat :=
  match ps.toNat with
  | 1 => some 1
  | 2 => some 8
  | 3 => some 64
  | 4 => some 256
  | 5 => some 1024
  | _ => none

/-- `TICK` (45_timer R142): 16-bit equality on the values before the tick; a match sets `OCF` and, in reset-on-match mode,
clears the counter; otherwise the counter counts and wraps silently. -/
def tick (s : State) : State :=
  if s.tcnt = s.ocr then
    emit (.compareMatch s.stamp) { s with ocf := true, tcnt := if s.ctc then 0 else s.tcnt + 1 }
  else { s with tcnt := s.tcnt + 1 }

/-- Whether the `CLK` step that leaves the divider at `n` contains a tick (45_timer R140). -/
def ticksAt (ps : BitVec 3) (n : BitVec 10) : Bool :=
  match divisor ps with
  | some p => n.toNat % p == 0
  | none => false

/-- `CLK` (45_timer R140): the divider free-runs; a tick falls in this step when its new value is a multiple of the
selected factor. -/
def clk (s : State) : State :=
  let s' := { s with psc := s.psc + 1 }
  if ticksAt s.ps (s.psc + 1) then tick s' else s'

/-- `n` clock steps with no other step between them. -/
def clks : Nat → State → State
  | 0, s => s
  | n + 1, s => clks n (clk s)

end Sys2Proof.Machine
end

