-- ==== Sys2Proof/Machine/Agents.lean ====
section
/-! DEFINITION. The steps of the three agents (00_scope R7): the sequencer's fetch, decode and choice of step, the clock's,
the reset's; whose turn it is; and placing one command where the sequencer fetches next. -/

namespace Sys2Proof.Machine

/-- The fault cause an illegal word raises (30_encoding R85). -/
def illegalCause : IllegalWord → FaultCause
  | .illegalOpcode => .illegalOpcode
  | .reservedField => .reservedField
  | .reservedRegister => .reservedRegister

/-- `EXEC` (30_encoding R90): fetch the word at `pc`, decode it, and execute the command or enter the fault. -/
def execStep (s : State) : Host.Outcome State Fault Refusal :=
  match romWord s s.pc with
  | none => .fault .noSuchRomByte
  | some w =>
    match decodeWord w with
    | .error why => .next (raiseFault (illegalCause why) s)
    | .ok i => exec i s

/-- The sequencer's turn (60_exceptions R195): `ACCEPT` before `EXEC`; where neither is enabled (faulted, or asleep with no
acceptable interrupt) nothing happens (log 4). -/
def sequencerStep (s : State) : Host.Outcome State Fault Refusal :=
  if acceptOk s then .next (enterHandler s)
  else if execOk s then execStep s
  else .next s

/-- The step of one agent (00_scope R7). -/
def agentStep (a : Config.Agent) (s : State) : Host.Outcome State Fault Refusal :=
  match a with
  | .clock => .next (clk s)
  | .sequencer => sequencerStep s
  | .reset => .next (resetStep s)

/-- Whose turn it is: the environment's choice where the agenda makes one, else a free value (log 3). -/
def nextAgent (s : State) : Config.Agent :=
  match s.agenda with
  | a :: _ => a
  | [] => Config.freeAgent s.draws

/-- The state with this turn taken off the agenda and counted. -/
def takeTurn (s : State) : State := { s with agenda := s.agenda.tail, draws := s.draws + 1 }

/-- `s` with the word `w` programmed at `pc`, the sequencer's turn next, and nothing left that would keep the sequencer from
executing it: not faulted, not asleep, and, only where an interrupt would be accepted instead, the one-command delay of
`EIP` (log 7). -/
def placeCommand (s : State) (w : Word) : State :=
  let awake := { s with slp := false, flt := false }
  { awake with
    rom := Memory.putWord s.params s.rom s.pc w
    agenda := .sequencer :: s.agenda
    eip := s.eip || acceptOk awake }

/-- `s` after the agents of `order` have stepped in turn, for as long as each gives a next state. -/
def runAgents : List Config.Agent → State → Host.Outcome State Fault Refusal
  | [], s => .next s
  | a :: rest, s =>
    match agentStep a s with
    | .next t => runAgents rest t
    | .fault r => .fault r
    | .refused r => .refused r

end Sys2Proof.Machine
end

