-- ==== Sys2Proof/Machine/Step.lean ====
section
/-! DEFINITION. One step of the machine: the step of the agent whose turn it is (00_scope R7). -/

namespace Sys2Proof.Machine

/-- One step: the turn is taken off the agenda, then its agent steps. -/
def step (s : State) : Host.Outcome State Fault Refusal := agentStep (nextAgent s) (takeTurn s)

/-- `s` with the instruction whose bits, numbered as spec/opcode_table.json numbers them, are `w` placed so that the very
next step executes it (log 7). -/
def State.withFetchWord (s : State) (nbits w : Nat) : State := placeCommand s (tableWord nbits w)

end Sys2Proof.Machine
end

