-- ==== Sys2Proof/Machine/Assembler.lean ====
section
/-! DEFINITION. The assembler syntax and the pseudo-instructions (30_encoding R88, R89): source text to commands at ROM
addresses, refusing by name what R88 gives no form. Points R88 leaves open are in log 14. -/

namespace Sys2Proof.Machine

/-- Why a source text is refused. -/
inductive AsmError where
  /-- the word is no mnemonic, pseudo-instruction or directive of R88 and R89 -/
  | unknownMnemonic
  /-- the operands do not have the mnemonic's form, or a number is out of its range -/
  | badOperands
  /-- what stands before a colon is no label name -/
  | badLabel
  /-- one label names two addresses -/
  | duplicateLabel
  /-- a jump names a label that no line defines -/
  | unknownLabel
  /-- a command or a jump's label would stand past address 0xFF -/
  | pastEnd
  /-- two commands stand at one address -/
  | addressTaken
  deriving DecidableEq, Repr

/-- What a line asks for: `.org n`, a command, or a jump whose target is a label. -/
inductive AsmItem where
  | org (n : Nat)
  | command (i : Instr)
  | jumpTo (label : List Char)
  deriving DecidableEq, Repr

/-- One line of source: an optional label and an optional item. -/
structure AsmLine where
  label : Option (List Char)
  item : Option AsmItem
  deriving DecidableEq, Repr

/-- Split a text at every occurrence of a character. -/
def splitAt (d : Char) : List Char → List (List Char)
  | [] => [[]]
  | c :: cs =>
    match splitAt d cs with
    | [] => [[c]]
    | x :: xs => if c = d then [] :: x :: xs else (c :: x) :: xs

/-- White space inside a line. -/
def isBlank (c : Char) : Bool := c == ' ' || c == '\t' || c == '\r'

/-- A text without white space at either end. -/
def trimBlank (cs : List Char) : List Char := ((cs.dropWhile isBlank).reverse.dropWhile isBlank).reverse

/-- The value of a digit in bases up to 16. -/
def digitValue (c : Char) : Option Nat :=
  if '0' ≤ c ∧ c ≤ '9' then some (c.toNat - 48)
  else if 'a' ≤ c ∧ c ≤ 'f' then some (c.toNat - 87)
  else if 'A' ≤ c ∧ c ≤ 'F' then some (c.toNat - 55)
  else none

/-- A number continued from the value `acc` by digits of a base. -/
def digitsFrom (base acc : Nat) : List Char → Option Nat
  | [] => some acc
  | c :: cs =>
    match digitValue c with
    | some d => if d < base then digitsFrom base (base * acc + d) cs else none
    | none => none

/-- A nonempty run of digits of a base. -/
def digits (base : Nat) (cs : List Char) : Option Nat := if cs = [] then none else digitsFrom base 0 cs

/-- A number: decimal, `0x` or `0b` (R88). -/
def parseNumber : List Char → Option Nat
  | '0' :: 'x' :: cs => digits 16 cs
  | '0' :: 'b' :: cs => digits 2 cs
  | cs => digits 10 cs

/-- A number below a bound. -/
def parseBelow (bound : Nat) (cs : List Char) : Option Nat :=
  match parseNumber cs with
  | some n => if n < bound then some n else none
  | none => none

/-- An immediate: `#` and a number in 0..65535 (R88). -/
def parseImm : List Char → Option (BitVec 16)
  | '#' :: cs => (parseBelow 65536 cs).map (BitVec.ofNat 16)
  | _ => none

/-- A register operand: its name or `r0` to `r6` (R88). -/
def parseReg (cs : List Char) : Option (BitVec 3) :=
  if cs = ['T', 'C', 'N', 'T'] ∨ cs = ['r', '0'] then some 0
  else if cs = ['O', 'C', 'R'] ∨ cs = ['r', '1'] then some 1
  else if cs = ['T', 'C', 'T', 'L'] ∨ cs = ['r', '2'] then some 2
  else if cs = ['T', 'I', 'M', 'S', 'K'] ∨ cs = ['r', '3'] then some 3
  else if cs = ['T', 'I', 'F', 'R'] ∨ cs = ['r', '4'] then some 4
  else if cs = ['D', 'D', 'R'] ∨ cs = ['r', '5'] then some 5
  else if cs = ['P', 'O', 'R', 'T'] ∨ cs = ['r', '6'] then some 6
  else none

/-- A character that may begin a label. -/
def isLabelStart (c : Char) : Bool := c.isAlpha || c == '_'

/-- A label name: letters, digits and underscores, not beginning with a digit. -/
def isLabel : List Char → Bool
  | [] => false
  | c :: cs => isLabelStart c && cs.all fun d => isLabelStart d || d.isDigit

/-- A register and immediate operand pair put into a command (format W). -/
def asmW (mk : BitVec 3 → BitVec 16 → Instr) : List (List Char) → Except AsmError AsmItem
  | [r, imm] =>
    match parseReg r, parseImm imm with
    | some r, some imm => .ok (.command (mk r imm))
    | _, _ => .error .badOperands
  | _ => .error .badOperands

/-- A command without operands (format Z). -/
def asmZ (i : Instr) : List (List Char) → Except AsmError AsmItem
  | [] => .ok (.command i)
  | _ => .error .badOperands

/-- A pseudo-instruction with a bit number 0..7 (R89). -/
def asmBit (mk : BitVec 3 → Pseudo) : List (List Char) → Except AsmError AsmItem
  | [n] =>
    match parseBelow 8 n with
    | some n => .ok (.command (mk (BitVec.ofNat 3 n)).expand)
    | none => .error .badOperands
  | _ => .error .badOperands

/-- `RD r` (R88). -/
def asmRd : List (List Char) → Except AsmError AsmItem
  | [r] =>
    match parseReg r with
    | some r => .ok (.command (.rd r))
    | none => .error .badOperands
  | _ => .error .badOperands

/-- `JMP addr`: a number in 0..255 or a label (R88). -/
def asmJmp : List (List Char) → Except AsmError AsmItem
  | [t] =>
    if isLabel t then .ok (.jumpTo t)
    else
      match parseBelow 256 t with
      | some n => .ok (.command (.jmp (BitVec.ofNat 8 n)))
      | none => .error .badOperands
  | _ => .error .badOperands

/-- `.org n` (R88). -/
def asmOrg : List (List Char) → Except AsmError AsmItem
  | [n] =>
    match parseBelow 256 n with
    | some n => .ok (.org n)
    | none => .error .badOperands
  | _ => .error .badOperands

/-- The item of a mnemonic and its operands (R88, R89). -/
def asmItem (m : List Char) (ops : List (List Char)) : Except AsmError AsmItem :=
  if m = ['R', 'D'] then asmRd ops
  else if m = ['W', 'R'] then asmW .wr ops
  else if m = ['B', 'S', 'E', 'T'] then asmW .bset ops
  else if m = ['B', 'C', 'L', 'R'] then asmW .bclr ops
  else if m = ['B', 'T', 'G', 'L'] then asmW .btgl ops
  else if m = ['D', 'I', 'N', 'T'] then asmZ .dint ops
  else if m = ['E', 'I', 'N', 'T'] then asmZ .eint ops
  else if m = ['W', 'A', 'I', 'T'] then asmZ .wait ops
  else if m = ['N', 'O', 'P'] then asmZ .nop ops
  else if m = ['J', 'M', 'P'] then asmJmp ops
  else if m = ['R', 'E', 'T', 'I'] then asmZ .reti ops
  else if m = ['A', 'C', 'K'] then asmZ Pseudo.ack.expand ops
  else if m = ['O', 'U', 'T', 'P'] then asmBit .outp ops
  else if m = ['H', 'I', 'G', 'H'] then asmBit .high ops
  else if m = ['T', 'G', 'L'] then asmBit .tgl ops
  else if m = ['I', 'R', 'Q', 'O', 'N'] then asmZ Pseudo.irqon.expand ops
  else if m = ['.', 'o', 'r', 'g'] then asmOrg ops
  else .error .unknownMnemonic

/-- The operands of a line: what follows the mnemonic, split at commas. -/
def asmOperands (cs : List Char) : List (List Char) :=
  if trimBlank cs = [] then [] else (splitAt ',' cs).map trimBlank

/-- The item of a line without its label and comment; `none` for a blank one. -/
def asmStatement (cs : List Char) : Except AsmError (Option AsmItem) :=
  let t := trimBlank cs
  if t = [] then .ok none
  else
    match asmItem (t.takeWhile fun c => !isBlank c) (asmOperands (t.dropWhile fun c => !isBlank c)) with
    | .ok item => .ok (some item)
    | .error e => .error e

/-- A line: `;` starts a comment, `label:` at its start names the next command's address (R88). -/
def asmLine (cs : List Char) : Except AsmError AsmLine :=
  let code := cs.takeWhile (· ≠ ';')
  match code.dropWhile (· ≠ ':') with
  | [] =>
    match asmStatement code with
    | .ok item => .ok ⟨none, item⟩
    | .error e => .error e
  | _ :: rest =>
    let label := trimBlank (code.takeWhile (· ≠ ':'))
    if isLabel label then
      match asmStatement rest with
      | .ok item => .ok ⟨some label, item⟩
      | .error e => .error e
    else .error .badLabel

/-- All lines of a text, the first error winning. -/
def asmLines : List (List Char) → Except AsmError (List AsmLine)
  | [] => .ok []
  | l :: rest =>
    match asmLine l with
    | .error e => .error e
    | .ok line =>
      match asmLines rest with
      | .error e => .error e
      | .ok lines => .ok (line :: lines)

/-- The address a label names, if any. -/
def labelAddress (labels : List (List Char × Nat)) (l : List Char) : Option Nat :=
  (labels.find? fun e => e.1 == l).map (·.2)

/-- The address of the first command of some lines, the address counter standing at `at0` before them. DESIGN CHOICE (log
14): where no command follows, it is where the address counter ends. -/
def nextAddress (at0 : Nat) : List AsmLine → Nat
  | [] => at0
  | line :: rest =>
    match line.item with
    | none => nextAddress at0 rest
    | some (.org n) => nextAddress n rest
    | some (.command _) => at0
    | some (.jumpTo _) => at0

/-- The address counter after a line. -/
def afterLine (at0 : Nat) (line : AsmLine) : Nat :=
  match line.item with
  | none => at0
  | some (.org n) => n
  | some (.command _) => at0 + 1
  | some (.jumpTo _) => at0 + 1

/-- First pass: the labels, each with the address of the next command. -/
def asmLabels (at0 : Nat) : List AsmLine → Except AsmError (List (List Char × Nat))
  | [] => .ok []
  | line :: rest =>
    match asmLabels (afterLine at0 line) rest with
    | .error e => .error e
    | .ok labels =>
      match line.label with
      | none => .ok labels
      | some l =>
        if (labelAddress labels l).isSome then .error .duplicateLabel
        else .ok ((l, nextAddress at0 (line :: rest)) :: labels)

/-- A command put at an address that no later command of the list holds. -/
def asmPlace (a : Nat) (i : Instr) (rest : List (RomAddr × Instr)) : Except AsmError (List (RomAddr × Instr)) :=
  if 256 ≤ a then .error .pastEnd
  else if rest.any (fun e => e.1 == BitVec.ofNat 8 a) then .error .addressTaken
  else .ok ((BitVec.ofNat 8 a, i) :: rest)

/-- Second pass: the commands with their addresses, labels resolved. -/
def asmPlaceAll (labels : List (List Char × Nat)) (at0 : Nat) :
    List AsmLine → Except AsmError (List (RomAddr × Instr))
  | [] => .ok []
  | line :: rest =>
    match line.item with
    | none => asmPlaceAll labels at0 rest
    | some (.org n) => asmPlaceAll labels n rest
    | some (.command i) =>
      match asmPlaceAll labels (at0 + 1) rest with
      | .error e => .error e
      | .ok placed => asmPlace at0 i placed
    | some (.jumpTo l) =>
      match labelAddress labels l with
      | none => .error .unknownLabel
      | some t =>
        if 256 ≤ t then .error .pastEnd
        else
          match asmPlaceAll labels (at0 + 1) rest with
          | .error e => .error e
          | .ok placed => asmPlace at0 (.jmp (BitVec.ofNat 8 t)) placed

/-- A source text to commands at ROM addresses (R88). DESIGN CHOICE (log 14): the first command of a text stands at address
0x00 unless an `.org` precedes it; R88 does not say where a text starts. -/
def assemble (source : List Char) : Except AsmError (List (RomAddr × Instr)) :=
  match asmLines (splitAt '\n' source) with
  | .error e => .error e
  | .ok lines =>
    match asmLabels 0 lines with
    | .error e => .error e
    | .ok labels => asmPlaceAll labels 0 lines

/-- The image of assembled commands: blank words elsewhere (20_memory R61). -/
def assembledImage (placed : List (RomAddr × Instr)) (a : RomAddr) : Word :=
  match placed.find? fun e => e.1 == a with
  | some e => encodeWord e.2
  | none => blankWord

end Sys2Proof.Machine
end

