-- ==== Sys2Proof/Machine/Parameters.lean ====
section
/-! DEFINITION. Design-time arithmetic on the parameters: the prescaler factor, the threshold formula (46_canonical_rom
R162), the period law in seconds (45_timer R146), and building a machine, with the configurations that are refused (00_scope
R9). None of it is read by a step. -/

namespace Sys2Proof.Machine

/-- `PRESCALER = div(PS_CODE)` (00_scope R4). -/
def prescaler (p : Config.Params) : Option Nat := divisor p.psCode

/-- Why a configuration is refused when it is built (00_scope R9, log 12). -/
inductive ConfigError where
  /-- `CLOCK_HZ` is a positive rational (R4) -/
  | clockNotPositive
  /-- `PS_CODE` must be one of 1..5 for the canonical ROM to produce any match (R9) -/
  | prescalerStopped
  /-- "a threshold outside `[1, 65535]` is a configuration error" (46_canonical_rom R162) -/
  | thresholdOutOfRange
  /-- `VEC` lies inside the initialization and idle code of the image (R9) -/
  | vectorInsideProgram
  /-- the image's handler does not fit between `VEC` and the end of the ROM (log 13) -/
  | handlerPastEnd
  /-- the blink frequency of the threshold formula is not positive (log 12) -/
  | frequencyNotPositive
  deriving DecidableEq, Repr

/-- The compare threshold is in `[1, 65535]` (10_state R22, 00_scope R9). -/
def thresholdOk (t : Nat) : Bool := decide (1 ≤ t) && decide (t ≤ 65535)

/-- Build-time check of the parameters for the chosen image (00_scope R9). That the handler must fit into the ROM is DEDUCED
from 46_canonical_rom R167, whose properties hold of every legal configuration (log 13). The lengths of the code and of the
handler are those the image declares (DESIGN CHOICE, log 18). -/
def checkParams (p : Config.Params) (image : Image) : Except ConfigError Config.Params :=
  if p.clockHz ≤ 0 then .error .clockNotPositive
  else if (prescaler p).isNone then .error .prescalerStopped
  else if !thresholdOk p.threshold then .error .thresholdOutOfRange
  else if p.vec.toNat < image.codeLength then .error .vectorInsideProgram
  else if 256 < p.vec.toNat + image.handlerLength then .error .handlerPastEnd
  else .ok p

/-- Build a machine with parameters `p` whose ROM holds `image`, as it is right after reset; an invalid configuration is
refused and gives no machine (00_scope R9). -/
def State.build (p : Config.Params) (image : Image) : Except ConfigError State :=
  match checkParams p image with
  | .ok q => .ok (State.boot q (Memory.ofImage q image.word))
  | .error e => .error e

/-- Round to the nearest integer, halves up (46_canonical_rom R162, 92_eei_decisions D24). -/
def roundHalfUp (q : Rat) : Int := (q + 1 / 2).floor

/-- `round(clock_rate / prescaler / (2 * blink_frequency)) - 1` (46_canonical_rom R162). -/
def thresholdFormula (clockHz : Rat) (factor : Nat) (blinkHz : Rat) : Int :=
  roundHalfUp (clockHz / (factor : Rat) / (2 * blinkHz)) - 1

/-- The threshold for a blink frequency, refused outside `[1, 65535]` (46_canonical_rom R162). -/
def chooseThreshold (p : Config.Params) (blinkHz : Rat) : Except ConfigError Nat :=
  if p.clockHz ≤ 0 then .error .clockNotPositive
  else if blinkHz ≤ 0 then .error .frequencyNotPositive
  else
    match prescaler p with
    | none => .error .prescalerStopped
    | some factor =>
      let t := thresholdFormula p.clockHz factor blinkHz
      if 1 ≤ t ∧ t ≤ 65535 then .ok t.toNat else .error .thresholdOutOfRange

/-- `clk` edges between two matches in reset-on-match mode: `(OCR + 1) * P` (45_timer R146). -/
def matchSpacing (ocr : BitVec 16) (factor : Nat) : Nat := (ocr.toNat + 1) * factor

/-- `clk` edges in which a free-running counter comes round to its match again (45_timer R144). -/
def freeRunSpacing (factor : Nat) : Nat := 65536 * factor

/-- The period of the LED in seconds, `2 * (threshold + 1) * prescaler / clock_rate` (45_timer R146). -/
def blinkPeriod (p : Config.Params) : Option Rat :=
  (prescaler p).map fun factor => 2 * ((p.threshold : Rat) + 1) * (factor : Rat) / p.clockHz

end Sys2Proof.Machine
end

