-- ==== Sys2Proof/Safety.lean ====
section
/-! DEFINITION. The terms claims are stated in: one step leading to another state, the invariant of the sequencer's flags,
runs and fairness (00_scope R7, R8), counts over the trace, the premise NoOverrun (70_reset R240). -/

namespace Sys2Proof.Machine

/-- The step of agent `a` leads from `s` to `t`. -/
def AgentSteps (a : Config.Agent) (s t : State) : Prop := agentStep a s = .next t

/-- A step of the machine leads from `s` to `t`. -/
def Steps (s t : State) : Prop := step s = .next t

/-- What the flags of the sequencer and the fault record say of each other in every state a run reaches: `FC` is 0 exactly
while not faulted and never 6 or 7 (60_exceptions R203); a fault leaves `pc` at the faulting command (10_state R30); `EIP`
comes with `GIE` (R34, 42_interrupt_control R131); the sequencer sleeps only at the normal level, right after a `WAIT`, and
not faulted (41_sequencing R122, 60_exceptions R211); causes 4 and 5 tell the level of the fault (R203). -/
structure FlagsConsistent (s : State) : Prop where
  noCauseUnlessFaulted : s.flt = false → s.fc = 0
  causeWhenFaulted : s.flt = true → 1 ≤ s.fc.toNat ∧ s.fc.toNat ≤ 5
  faultAtPc : s.flt = true → s.fpc = s.pc
  delayOnlyEnabled : s.eip = true → s.gie = true
  sleepsAtNormalLevel : s.slp = true → s.isv = false ∧ s.eip = false ∧ s.flt = false
  returnFaultLevel : s.flt = true → s.fc = 4 → s.isv = false
  waitFaultLevel : s.flt = true → s.fc = 5 → s.isv = true

/-- A run under the schedule `who`: state follows state by the step of the agent that the environment picks, without end
(00_scope R7, R8). Where the environment has left its picks in State, `step` is `agentStep` of the next of them. -/
def IsRun (who : Nat → Config.Agent) (r : Nat → State) : Prop := ∀ n, AgentSteps (who n) (r n) (r (n + 1))

/-- Weak fairness (00_scope R7), the premise of claims about infinite runs: the clock, always enabled, steps again and again,
and the sequencer, where it has a step from some point on, takes its turn again. -/
def WeaklyFair (who : Nat → Config.Agent) (r : Nat → State) : Prop :=
  (∀ n, ∃ k, n ≤ k ∧ who k = .clock) ∧
  ∀ n, (∀ k, n ≤ k → acceptOk (r k) = true ∨ execOk (r k) = true) → ∃ k, n ≤ k ∧ who k = .sequencer

/-- What a run shows: the level of the LED pin after step number `n`, the steps numbered from 0 (00_scope R8). -/
def observed (r : Nat → State) (n : Nat) : Pin := led (r (n + 1))

/-- The opposite level; a pin that is not driven has none. -/
def Pin.inverted : Pin → Pin
  | .low => .high
  | .high => .low
  | .z => .z

/-- Whether an event is an acceptance. -/
def isAccept : Event → Bool
  | .accept _ => true
  | _ => false

/-- Whether an event is a return from the handler. -/
def isReti : Event → Bool
  | .reti _ => true
  | _ => false

/-- Whether an event is a compare match. -/
def isMatch : Event → Bool
  | .compareMatch _ => true
  | _ => false

/-- Whether an event is a reset. -/
def isReset : Event → Bool
  | .reset _ => true
  | _ => false

/-- Whether an event is a toggle of port bits. -/
def isPortToggle : Event → Bool
  | .bus .btgl .port _ _ _ => true
  | _ => false

/-- How many events of a kind the trace of a state holds. -/
def countEvents (kind : Event → Bool) (s : State) : Nat := s.trace.countP kind

/-- NoOverrun from a trace on, `pending` telling whether a match stands unaccepted: between two consecutive matches there is
an acceptance (70_reset R240). A premise of claims, nothing the hardware provides. -/
def NoOverrun (pending : Bool) : List Event → Bool
  | [] => true
  | .compareMatch _ :: rest => !pending && NoOverrun true rest
  | .accept _ :: rest => NoOverrun false rest
  | _ :: rest => NoOverrun pending rest

/-- Whether the `n`-th of the clock steps that follow `s` (counting from 0) raises a compare match. -/
def MatchAt (s : State) (n : Nat) : Prop :=
  countEvents isMatch (clks (n + 1) s) = countEvents isMatch (clks n s) + 1

/-- Whether step `k` of a run raises a compare match. -/
def MatchStep (r : Nat → State) (k : Nat) : Prop := countEvents isMatch (r (k + 1)) = countEvents isMatch (r k) + 1

/-- How many of the steps numbered `a` up to but not `b` are clock steps. -/
def clockSteps (who : Nat → Config.Agent) (a b : Nat) : Nat := (List.range' a (b - a)).countP fun k => who k == .clock

/-- The bits of a register that have storage (10_state R20 to R28); the others read 0 and ignore writes. -/
def implemented : Reg → RegValue
  | .tcnt => 0xFFFF
  | .ocr => 0xFFFF
  | .tctl => 0x000F
  | .timsk => 0x0001
  | .tifr => 0x0001
  | .ddr => 0x00FF
  | .port => 0x00FF

/-- The same command executed `n` times in a row, with no other step between. -/
def execTimes : Nat → Instr → State → Host.Outcome State Fault Refusal
  | 0, _, s => .next s
  | n + 1, i, s =>
    match exec i s with
    | .next t => execTimes n i t
    | .fault r => .fault r
    | .refused r => .refused r

/-- Every register of the bank reads as before. -/
def SameBank (s t : State) : Prop := ∀ reg, regRead t reg = regRead s reg

/-- Every register of the bank but one reads as before. -/
def SameBankBut (reg : Reg) (s t : State) : Prop := ∀ other, other ≠ reg → regRead t other = regRead s other

/-- The command ROM, byte by byte, and the parameters are as before. -/
def SameRom (s t : State) : Prop := t.params = s.params ∧ t.rom = s.rom ∧ ∀ a, romByte t a = romByte s a

/-- The fault record is as before. -/
def SameFaultRecord (s t : State) : Prop := t.flt = s.flt ∧ t.fc = s.fc ∧ t.fpc = s.fpc

/-- What no register-access command and no plain sequencing command writes is as before: the interrupt state, the sleep flag,
the return address, the fault record, the prescaler divider, the ROM and parameters, the environment's agenda. -/
def SameControl (s t : State) : Prop :=
  t.gie = s.gie ∧ t.isv = s.isv ∧ t.slp = s.slp ∧ t.rpc = s.rpc ∧ SameFaultRecord s t ∧ t.psc = s.psc ∧ SameRom s t ∧
    t.agenda = s.agenda ∧ t.draws = s.draws

/-- `pc <- (pc + 1) mod 256` (10_state R30). -/
def PcAdvanced (s t : State) : Prop := t.pc.toNat = (s.pc.toNat + 1) % 256

/-- Fault entry and nothing else (60_exceptions R204): the fault record and the trace are written with cause `code`, every
other element keeps its value. -/
def EntersFault (code : BitVec 3) (s t : State) : Prop :=
  t.flt = true ∧ t.fc = code ∧ t.fpc = s.pc ∧ t.trace = s.trace ++ [.fault code ⟨s.pc, s.gie, s.isv⟩] ∧
    t.pc = s.pc ∧ t.gie = s.gie ∧ t.isv = s.isv ∧ t.eip = s.eip ∧ t.slp = s.slp ∧ t.dl = s.dl ∧ t.rpc = s.rpc ∧
    SameBank s t ∧ t.psc = s.psc ∧ SameRom s t ∧ t.agenda = s.agenda ∧ t.draws = s.draws

/-- A must-be-zero bit of the format of `w`'s opcode is 1 (30_encoding R90): bits 27 and 23:16 of format W, 27 and 23:0 of
format R, 27:8 of format J, 27:0 of format Z. -/
def ReservedBitSet (w : Word) : Prop :=
  match (opField w).toNat with
  | 0x1 => w.getLsbD 27 = true ∨ w.extractLsb' 0 24 ≠ 0
  | 0x2 | 0x3 | 0x4 | 0x5 => w.getLsbD 27 = true ∨ w.extractLsb' 16 8 ≠ 0
  | 0xA => w.extractLsb' 8 20 ≠ 0
  | _ => w.extractLsb' 0 28 ≠ 0

/-- `i` is a command that writes register `reg`. -/
def Writes (i : Instr) (reg : Reg) : Prop :=
  ∃ imm, i = .wr (regIndex reg) imm ∨ i = .bset (regIndex reg) imm ∨ i = .bclr (regIndex reg) imm ∨
    i = .btgl (regIndex reg) imm

/-- In state `s` a turn of the sequencer executes command `i`: no interrupt is accepted instead, it is neither faulted nor
asleep, and the word at `pc` decodes to `i`. -/
def Fetches (s : State) (i : Instr) : Prop := execOk s = true ∧ ∃ w, romWord s s.pc = some w ∧ decodeWord w = .ok i

/-- In the steps numbered `a` up to but not `b` of a run nothing but the clock acts on the timer: no reset, and no executed
command writes `TCNT`, `OCR` or `TCTL` (the premise of 45_timer R146). -/
def TimerUndisturbed (who : Nat → Config.Agent) (r : Nat → State) (a b : Nat) : Prop :=
  ∀ k, a ≤ k → k < b → who k ≠ .reset ∧
    (who k = .sequencer → ∀ i, Fetches (r k) i → ¬Writes i .tcnt ∧ ¬Writes i .ocr ∧ ¬Writes i .tctl)

/-- In state `s` it is the sequencer's turn, and it executes command `i`. -/
def Executes (s : State) (i : Instr) : Prop := nextAgent s = .sequencer ∧ Fetches s i

/-- In state `s` the sequencer's turn is an acceptance. -/
def Accepts (s : State) : Prop := nextAgent s = .sequencer ∧ acceptOk s = true

/-- A state from which a run is a correct run of the source's system: not faulted ("a faulted state is never a correct end of
a run", 60_exceptions R204). -/
def Unfaulted (s : State) : Prop := s.flt = false

end Sys2Proof.Machine
end

