-- ==== Sys2Proof/Certificates/Slice0/Obligations.lean ====
section
/-! DEFINITION. The statements for the provers, from the spec's numbered rules. Nothing here is about a program. -/

open Sys2Proof Sys2Proof.Machine
open Sys2Proof.Config (Agent)

/-! ## Encoding -/

/-- Decoding the bytes of a well-formed command gives the command back with every operand, and the bytes after it are left
(30_encoding R80 to R84, 20_memory R63). -/
def Obligations.DecodeOfEncodeIsTheCommand : Prop :=
  ∀ (i : Instr) (rest : List Byte), i.wf = true → decode (encode i ++ rest) = .ok (i, rest)

/-- A word that decodes is the word of exactly that command, which is well formed: each word has one meaning and no bit of it
is dropped (30_encoding R80 to R85). -/
def Obligations.EncodeOfDecodeIsTheWord : Prop :=
  ∀ (w : Word) (i : Instr), decodeWord w = .ok i → encodeWord i = w ∧ i.wf = true

/-- Which words are illegal and which case each one is, the first case that applies winning (30_encoding R85 cases 1 to 3,
60_exceptions R205), bit by bit. -/
def Obligations.IllegalWordsAreRejectedInOrder : Prop :=
  ∀ w : Word,
    let op := (opField w).toNat
    (decodeWord w = .error .illegalOpcode ↔ op = 0x0 ∨ 0xC ≤ op) ∧
    (decodeWord w = .error .reservedField ↔ (1 ≤ op ∧ op ≤ 0xB) ∧ ReservedBitSet w) ∧
    (decodeWord w = .error .reservedRegister ↔ (1 ≤ op ∧ op ≤ 5) ∧ ¬ReservedBitSet w ∧ w.extractLsb' 24 3 = 7)

/-- A word of every command, written out from the formats and opcodes of 30_encoding R81 and R82, decodes to that command. -/
def Obligations.SpecWordsDecodeToTheirCommands : Prop :=
  decodeWord 0b0001_0_110_000000000000000000000000 = .ok (.rd 6) ∧
  decodeWord 0b0010_0_001_00000000_1111010000100011 = .ok (.wr 1 0xF423) ∧
  decodeWord 0b0011_0_010_00000000_0000000000001100 = .ok (.bset 2 0x000C) ∧
  decodeWord 0b0100_0_100_00000000_0000000000000001 = .ok (.bclr 4 0x0001) ∧
  decodeWord 0b0101_0_110_00000000_1111111111111111 = .ok (.btgl 6 0xFFFF) ∧
  decodeWord 0b0110_0000000000000000000000000000 = .ok .dint ∧
  decodeWord 0b0111_0000000000000000000000000000 = .ok .eint ∧
  decodeWord 0b1000_0000000000000000000000000000 = .ok .wait ∧
  decodeWord 0b1001_0000000000000000000000000000 = .ok .nop ∧
  decodeWord 0b1010_00000000000000000000_00001010 = .ok (.jmp 0x0A) ∧
  decodeWord 0b1011_0000000000000000000000000000 = .ok .reti

/-- The five pseudo-instructions are the words of the commands of the table of 30_encoding R89. -/
def Obligations.PseudoInstructionsExpandToOneCommand : Prop :=
  encodeWord Pseudo.ack.expand = 0x44000001 ∧ encodeWord Pseudo.irqon.expand = 0x33000001 ∧
  ∀ n : BitVec 3,
    encodeWord (Pseudo.outp n).expand = 0x35000000 ||| (1#32 <<< n.toNat) ∧
    encodeWord (Pseudo.high n).expand = 0x36000000 ||| (1#32 <<< n.toNat) ∧
    encodeWord (Pseudo.tgl n).expand = 0x56000000 ||| (1#32 <<< n.toNat)

/-! ## The step -/

/-- Where the environment gives the sequencer the turn, it may execute, and the word at `pc` decodes to a command, the step is
`exec` of that command; the turn is taken off the agenda and counted first (30_encoding R90; the agenda is the model's,
log 3). -/
def Obligations.StepExecutesTheDecodedCommand : Prop :=
  ∀ (s : State) (rest : List Agent) (w : Word) (i : Instr),
    s.agenda = .sequencer :: rest → execOk s = true → romWord s s.pc = some w → decodeWord w = .ok i →
    step s = exec i { s with agenda := rest, draws := s.draws + 1 }

/-- From every state and for every word at `pc` a step gives a next state: no step of TCMIC stops the model, whatever the
command ROM holds ("Decode is total", 30_encoding R90; faults are next states, 60_exceptions R204; a sequencer's turn with no
step enabled is a step that changes nothing, which is the model's, log 4). -/
def Obligations.EveryStepGivesANextState : Prop := ∀ s : State, ∃ t, Steps s t

/-- A word placed by `withFetchWord` is what the very next step executes, in a state with the registers of `s`; every other
word of the ROM reads as before (the model's own operation, log 7). -/
def Obligations.PlacedWordIsExecutedNext : Prop :=
  ∀ (s : State) (w : Word), ∃ u : State,
    (match decodeWord w with
      | .ok i => step (s.withFetchWord 32 w.toNat) = exec i u
      | .error why => ∃ t, step (s.withFetchWord 32 w.toNat) = .next t ∧ EntersFault (illegalCause why).code u t) ∧
    SameBank s u ∧ u.pc = s.pc ∧ u.dl = s.dl ∧ u.rpc = s.rpc ∧ u.gie = s.gie ∧ u.isv = s.isv ∧ u.psc = s.psc ∧
    u.trace = s.trace ∧ u.params = s.params ∧
    ∀ a, romWord u a = if a = s.pc then some w else romWord s a

/-- Every image can be given to a machine as its command ROM and is then what the machine fetches, word for word, in canonical
form (20_memory R61, R63: 256 words, little-endian when serialised; the cell list is the model's, log 6). -/
def Obligations.EveryImageIsReadBack : Prop :=
  ∀ (p : Sys2Proof.Config.Params) (image : RomAddr → Word),
    Memory.wf p (Memory.ofImage p image) = true ∧
    ∀ a, romWord (State.boot p (Memory.ofImage p image)) a = some (image a)

/-! ## The register bank -/

/-- `RegRead` and `RegWrite` of 20_memory R73 for all seven registers, bit by bit for the reads; each write is given with
everything it changes. -/
def Obligations.RegisterAccessFunctions : Prop :=
  ∀ (s : State) (v : RegValue),
    (regRead s .tcnt = s.tcnt ∧ regRead s .ocr = s.ocr ∧
      (∀ k, (regRead s .tctl).getLsbD k = if k < 3 then s.ps.getLsbD k else decide (k = 3) && s.ctc) ∧
      (∀ k, (regRead s .timsk).getLsbD k = (decide (k = 0) && s.ocie)) ∧
      (∀ k, (regRead s .tifr).getLsbD k = (decide (k = 0) && s.ocf)) ∧
      (∀ k, (regRead s .ddr).getLsbD k = (decide (k < 8) && s.ddr.getLsbD k)) ∧
      (∀ k, (regRead s .port).getLsbD k = (decide (k < 8) && s.port.getLsbD k))) ∧
    regWrite s .tcnt v = { s with tcnt := v } ∧
    regWrite s .ocr v = { s with ocr := v } ∧
    regWrite s .tctl v = { s with ps := v.extractLsb' 0 3, ctc := v.getLsbD 3 } ∧
    regWrite s .timsk v = { s with ocie := v.getLsbD 0 } ∧
    regWrite s .tifr v = { s with ocf := s.ocf && v.getLsbD 0 } ∧
    regWrite s .ddr v = { s with ddr := v.extractLsb' 0 8 } ∧
    regWrite s .port v = { s with port := v.extractLsb' 0 8 }

/-- `RD r` for every register: `DL` takes the register's value, `pc` advances, `EIP` is cleared, one `Bus` event is appended,
nothing else changes (40_register_access R100, R106). -/
def Obligations.RdLatchesTheRegister : Prop :=
  ∀ (s : State) (r : BitVec 3), r ≠ 7 → ∃ reg, regIndex reg = r ∧ ∃ t, exec (.rd r) s = .next t ∧
    t.dl = regRead s reg ∧ PcAdvanced s t ∧ t.eip = false ∧
    t.trace = s.trace ++ [.bus .rd reg (some (regRead s reg)) none ⟨s.pc, s.gie, s.isv⟩] ∧
    SameBank s t ∧ SameControl s t

/-- `WR r, #imm16` for every register: it takes the implemented bits of the immediate (`TIFR`: the flag is cleared by a 0,
kept by a 1); every other register and everything but `pc`, `EIP` and the trace is as before (40_register_access R101, R106). -/
def Obligations.WrStoresTheImplementedBits : Prop :=
  ∀ (s : State) (r : BitVec 3) (imm : BitVec 16), r ≠ 7 → ∃ reg, regIndex reg = r ∧ ∃ t, exec (.wr r imm) s = .next t ∧
    regRead t reg = (if reg = .tifr then regRead s .tifr &&& imm else imm &&& implemented reg) ∧ SameBankBut reg s t ∧
    PcAdvanced s t ∧ t.eip = false ∧ t.dl = s.dl ∧
    t.trace = s.trace ++ [.bus .wr reg none (some imm) ⟨s.pc, s.gie, s.isv⟩] ∧ SameControl s t

/-- `BSET r, #imm16` for every register: the masked implemented bits are 1, the others keep their value (`TIFR`: unchanged);
nothing else but `pc`, `EIP` and the trace (40_register_access R102, R105, R106). -/
def Obligations.BsetSetsTheMaskedBits : Prop :=
  ∀ (s : State) (r : BitVec 3) (imm : BitVec 16), r ≠ 7 → ∃ reg, regIndex reg = r ∧ ∃ t, exec (.bset r imm) s = .next t ∧
    regRead t reg = (if reg = .tifr then regRead s .tifr else (regRead s reg ||| imm) &&& implemented reg) ∧
    SameBankBut reg s t ∧ PcAdvanced s t ∧ t.eip = false ∧ t.dl = s.dl ∧
    t.trace = s.trace ++ [.bus .bset reg (some (regRead s reg)) (some (regRead s reg ||| imm)) ⟨s.pc, s.gie, s.isv⟩] ∧
    SameControl s t

/-- `BCLR r, #imm16` for every register, `TIFR` included: the masked bits are 0, the others keep their value; nothing else but
`pc`, `EIP` and the trace (40_register_access R103, R105, R106). -/
def Obligations.BclrClearsTheMaskedBits : Prop :=
  ∀ (s : State) (r : BitVec 3) (imm : BitVec 16), r ≠ 7 → ∃ reg, regIndex reg = r ∧ ∃ t, exec (.bclr r imm) s = .next t ∧
    regRead t reg = regRead s reg &&& ~~~imm ∧
    SameBankBut reg s t ∧ PcAdvanced s t ∧ t.eip = false ∧ t.dl = s.dl ∧
    t.trace = s.trace ++ [.bus .bclr reg (some (regRead s reg)) (some (regRead s reg &&& ~~~imm)) ⟨s.pc, s.gie, s.isv⟩] ∧
    SameControl s t

/-- `BTGL r, #imm16` for every register: the masked implemented bits are inverted, the others keep their value (`TIFR`: the
flag is cleared where masked); nothing else but `pc`, `EIP` and the trace (40_register_access R104, R105, R106). -/
def Obligations.BtglInvertsTheMaskedBits : Prop :=
  ∀ (s : State) (r : BitVec 3) (imm : BitVec 16), r ≠ 7 → ∃ reg, regIndex reg = r ∧ ∃ t, exec (.btgl r imm) s = .next t ∧
    regRead t reg = (if reg = .tifr then regRead s .tifr &&& ~~~imm else (regRead s reg ^^^ imm) &&& implemented reg) ∧
    SameBankBut reg s t ∧ PcAdvanced s t ∧ t.eip = false ∧ t.dl = s.dl ∧
    t.trace = s.trace ++ [.bus .btgl reg (some (regRead s reg)) (some (regRead s reg ^^^ imm)) ⟨s.pc, s.gie, s.isv⟩] ∧
    SameControl s t

/-- The table of 40_register_access R105: for the old flag `f` and mask bit `m`, bit 0 of the value passed to `RegWrite` and
the new flag of the three bit commands on `TIFR` (index 4); and no command sets the flag. -/
def Obligations.TifrReadModifyWriteTable : Prop :=
  (∀ (s : State) (imm : BitVec 16), let f := s.ocf; let m := imm.getLsbD 0; let stamp : Stamp := ⟨s.pc, s.gie, s.isv⟩
    (∃ t v, exec (.bset 4 imm) s = .next t ∧ t.ocf = f ∧ v.getLsbD 0 = (f || m) ∧
      t.trace = s.trace ++ [.bus .bset .tifr (some (bitValue f)) (some v) stamp]) ∧
    (∃ t v, exec (.bclr 4 imm) s = .next t ∧ t.ocf = (f && !m) ∧ v.getLsbD 0 = (f && !m) ∧
      t.trace = s.trace ++ [.bus .bclr .tifr (some (bitValue f)) (some v) stamp]) ∧
    (∃ t v, exec (.btgl 4 imm) s = .next t ∧ t.ocf = (f && !m) ∧ v.getLsbD 0 = (f ^^ m) ∧
      t.trace = s.trace ++ [.bus .btgl .tifr (some (bitValue f)) (some v) stamp])) ∧
  ∀ (i : Instr) (s t : State), exec i s = .next t → t.ocf = true → s.ocf = true

/-- Each of the five register-access commands that names register 7 enters fault cause 3 and has no other effect
(60_exceptions R203, R204; 10_state R28; that `exec` itself answers so, beside decoding, is the model's, log 9). -/
def Obligations.ReservedRegisterEntersFault : Prop :=
  ∀ (s : State) (imm : BitVec 16) (i : Instr),
    i ∈ [Instr.rd 7, .wr 7 imm, .bset 7 imm, .bclr 7 imm, .btgl 7 imm] → ∃ t, exec i s = .next t ∧ EntersFault 3 s t

/-- Toggling `PORT` bits `n` times restores them for even `n` and inverts exactly the masked ones for odd `n`
(40_register_access R104: "invoked N times"). Over a run, whatever steps fall between (00_scope R8): while nothing but `BTGL` of
`PORT` with the LED's mask bit writes `DDR` or `PORT`, the observed level of the LED pin after step `n` is the first one for
an even number of toggles and the opposite one for an odd number. -/
def Obligations.ToggleParity : Prop :=
  (∀ (n : Nat) (mask : BitVec 16) (s : State), ∃ t, execTimes n (.btgl 6 mask) s = .next t ∧
    t.port = (if n % 2 = 0 then s.port else s.port ^^^ mask.extractLsb' 0 8) ∧ t.ddr = s.ddr) ∧
  ∀ (who : Nat → Agent) (r : Nat → State) (n : Nat) (new : List Event), IsRun who r → (∀ k, k ≤ n → who k ≠ .reset) →
    (∀ k, k ≤ n → who k = .sequencer → ∀ i, Fetches (r k) i → ¬Writes i .ddr ∧
      (Writes i .port → ∃ mask, i = .btgl 6 mask ∧ mask.getLsbD (r 0).params.ledBit.val = true)) →
    (r (n + 1)).trace = (r 0).trace ++ new →
    observed r n = if new.countP isPortToggle % 2 = 0 then led (r 0) else (led (r 0)).inverted

/-- A pin is not driven while its `DDR` bit is 0 and follows its `PORT` bit while it is 1; a `BTGL` of `PORT` inverts exactly
the driven pins under its mask, in its own step (10_state R38, 40_register_access R104). -/
def Obligations.PinsFollowPortAndDirection : Prop :=
  ∀ (s : State) (i : Fin 8),
    (pin s i = .z ↔ s.ddr.getLsbD i = false) ∧
    (pin s i = .high ↔ s.ddr.getLsbD i = true ∧ s.port.getLsbD i = true) ∧
    (pin s i = .low ↔ s.ddr.getLsbD i = true ∧ s.port.getLsbD i = false) ∧
    ∀ mask : BitVec 16, ∃ t, exec (.btgl 6 mask) s = .next t ∧
      pin t i = (match pin s i with
        | .z => .z
        | .low => if mask.getLsbD i then .high else .low
        | .high => if mask.getLsbD i then .low else .high)

/-- Only `RESET` and the four writing commands that name it change a register other than `TCNT` and `TIFR`: hardware never
writes `OCR`, `TCTL`, `TIMSK`, `DDR` or `PORT` (10_state R22 to R27). -/
def Obligations.BankIsWrittenByItsCommandsOnly : Prop :=
  ∀ (s t : State) (reg : Reg), Steps s t → reg ≠ .tcnt → reg ≠ .tifr → regRead t reg ≠ regRead s reg →
    nextAgent s = .reset ∨ ∃ i, Executes s i ∧ Writes i reg

/-- With `REG_BASE` given, a host access reaches a register exactly when it is a 16-bit access at `REG_BASE + 2*i`, `i` in
0..6, and every other access is refused (20_memory R62, R64); it sees the register's bits 7:0 in the byte at the lower address
and its bits 15:8 in the next (R63). That no access reaches the bank where `REG_BASE` is open is the model's choice (log
16), as is that the host is modelled by this address map alone. -/
def Obligations.HostReachesTheBankAtItsAddressesOnly : Prop :=
  (∀ (p : Sys2Proof.Config.Params) (a width : Nat) (reg : Reg),
    hostRegister p a width = some reg ↔ width = 2 ∧ ∃ base, p.regBase = some base ∧ a = base + 2 * (regIndex reg).toNat) ∧
  ∀ (s : State) (a width : Nat) (reg : Reg), hostRegister s.params a width = some reg →
    ∃ b0 b1, hostBytes s a width = some [b0, b1] ∧ regOfBytes b0 b1 = regRead s reg ∧
      ∀ k, k < 8 → b0.getLsbD k = (regRead s reg).getLsbD k ∧ b1.getLsbD k = (regRead s reg).getLsbD (8 + k)

/-! ## Sequencing commands -/

/-- `NOP` advances `pc`, clears `EIP`, appends nothing to the trace and changes nothing else, at both levels; its one word is
0x90000000 and every other word of its opcode is fault cause 2 (41_sequencing R120). -/
def Obligations.NopOnlyAdvances : Prop :=
  (∀ s : State, ∃ t, exec .nop s = .next t ∧ PcAdvanced s t ∧ t.eip = false ∧ t.dl = s.dl ∧ t.trace = s.trace ∧
    SameBank s t ∧ SameControl s t) ∧
  ∀ w : Word, opField w = 0x9 → decodeWord w = if w = 0x90000000 then .ok .nop else .error .reservedField

/-- `JMP addr8` sets `pc` to its operand, clears `EIP` and changes nothing else; the word is 0xA0000000 or `addr8`, and a
nonzero bit in 27:8 is fault cause 2 (41_sequencing R121). -/
def Obligations.JmpSetsThePc : Prop :=
  (∀ (s : State) (addr : BitVec 8), ∃ t, exec (.jmp addr) s = .next t ∧ t.pc = addr ∧ t.eip = false ∧ t.dl = s.dl ∧
    t.trace = s.trace ∧ SameBank s t ∧ SameControl s t) ∧
  ∀ w : Word, opField w = 0xA →
    decodeWord w = if w.extractLsb' 8 20 = 0 then .ok (.jmp (w.extractLsb' 0 8)) else .error .reservedField

/-- `WAIT` at the normal level sets `SLP`, advances `pc`, clears `EIP`, appends `Wait`, and leaves the rest; the sequencer then
has no `EXEC` step (41_sequencing R122). -/
def Obligations.WaitSleepsAfterItself : Prop :=
  ∀ s : State, s.isv = false → ∃ t, exec .wait s = .next t ∧ t.slp = true ∧ PcAdvanced s t ∧ t.eip = false ∧
    t.trace = s.trace ++ [.wait ⟨s.pc, s.gie, s.isv⟩] ∧ t.dl = s.dl ∧ t.gie = s.gie ∧ t.isv = s.isv ∧ t.rpc = s.rpc ∧
    t.psc = s.psc ∧ SameFaultRecord s t ∧ SameBank s t ∧ SameRom s t ∧ t.agenda = s.agenda ∧ t.draws = s.draws ∧
    execOk t = false

/-- `WAIT` inside the handler enters fault cause 5, `RETI` outside it cause 4, each with no other effect
(60_exceptions R203, R204). -/
def Obligations.MisplacedWaitAndRetiEnterFault : Prop :=
  ∀ s : State,
    (s.isv = true → ∃ t, exec .wait s = .next t ∧ EntersFault 5 s t) ∧
    (s.isv = false → ∃ t, exec .reti s = .next t ∧ EntersFault 4 s t)

/-! ## Interrupt-control commands -/

/-- `DINT` clears `GIE`, advances `pc`, clears `EIP`, appends `Dint` and changes nothing else; no interrupt is acceptable after
it (42_interrupt_control R130). -/
def Obligations.DintDisablesInterrupts : Prop :=
  ∀ s : State, ∃ t, exec .dint s = .next t ∧ t.gie = false ∧ PcAdvanced s t ∧ t.eip = false ∧
    t.trace = s.trace ++ [.dint ⟨s.pc, s.gie, s.isv⟩] ∧ t.dl = s.dl ∧ t.isv = s.isv ∧ t.slp = s.slp ∧ t.rpc = s.rpc ∧
    t.psc = s.psc ∧ SameFaultRecord s t ∧ SameBank s t ∧ SameRom s t ∧ t.agenda = s.agenda ∧ t.draws = s.draws ∧
    acceptOk t = false

/-- `EINT` sets `GIE` whatever it was, sets `EIP`, advances `pc`, appends `Eint` and changes nothing else
(42_interrupt_control R131). -/
def Obligations.EintEnablesInterrupts : Prop :=
  ∀ s : State, ∃ t, exec .eint s = .next t ∧ t.gie = true ∧ t.eip = true ∧ PcAdvanced s t ∧
    t.trace = s.trace ++ [.eint ⟨s.pc, s.gie, s.isv⟩] ∧ t.dl = s.dl ∧ t.isv = s.isv ∧ t.slp = s.slp ∧ t.rpc = s.rpc ∧
    t.psc = s.psc ∧ SameFaultRecord s t ∧ SameBank s t ∧ SameRom s t ∧ t.agenda = s.agenda ∧ t.draws = s.draws

/-- After an `EINT` that executes, the sequencer's next step executes the following command, never an acceptance, however many
clock steps, matches among them, fall between (42_interrupt_control R131, 10_state R34). -/
def Obligations.CommandAfterEintAlwaysRuns : Prop :=
  ∀ (s t : State) (n : Nat), s.flt = false → s.slp = false → exec .eint s = .next t →
    sequencerStep (clks n t) = execStep (clks n t)

/-- `RETI` in the handler: `pc` is the saved address, `ISV` clear, `GIE` set, `EIP` clear, `Reti` appended; neither `SLP`, `OCF`
nor anything else changes (42_interrupt_control R132). -/
def Obligations.RetiReturnsToTheSavedAddress : Prop :=
  ∀ s : State, s.isv = true → ∃ t, exec .reti s = .next t ∧ t.pc = s.rpc ∧ t.isv = false ∧ t.gie = true ∧ t.eip = false ∧
    t.trace = s.trace ++ [.reti ⟨s.pc, s.gie, s.isv⟩] ∧ t.dl = s.dl ∧ t.slp = s.slp ∧ t.rpc = s.rpc ∧
    t.psc = s.psc ∧ SameFaultRecord s t ∧ SameBank s t ∧ SameRom s t ∧ t.agenda = s.agenda ∧ t.draws = s.draws

/-! ## Interrupt acceptance -/

/-- `irq`, `accept_ok` and `exec_ok` as 10_state R39 and 60_exceptions R195 give them; where `accept_ok` holds the sequencer's
step is `ACCEPT`, else where `exec_ok` holds it is `EXEC`; never both enabled, and neither exactly when faulted, or asleep
with no acceptable interrupt. -/
def Obligations.SequencerStepEnabling : Prop :=
  ∀ s : State,
    (irq s = true ↔ s.ocie = true ∧ s.ocf = true) ∧
    (acceptOk s = true ↔ s.flt = false ∧ s.gie = true ∧ s.eip = false ∧ s.isv = false ∧ s.ocie = true ∧ s.ocf = true) ∧
    (execOk s = true ↔ s.flt = false ∧ s.slp = false ∧ ¬acceptOk s = true) ∧
    (acceptOk s = true → sequencerStep s = .next (enterHandler s)) ∧
    (execOk s = true → sequencerStep s = execStep s) ∧
    ((acceptOk s = false ∧ execOk s = false) ↔ s.flt = true ∨ (s.slp = true ∧ acceptOk s = false))

/-- `ACCEPT` (60_exceptions R196, R197): `pc` is saved in `RPC` and becomes `VEC`, `ISV` is set, `GIE`, `SLP` and `EIP` are
cleared, `OCF` is cleared exactly where `ACK_ON_ENTRY` is true, `Accept` is appended, and nothing else changes. -/
def Obligations.AcceptanceEntersTheHandler : Prop :=
  ∀ s : State, acceptOk s = true → ∃ t, sequencerStep s = .next t ∧ t.rpc = s.pc ∧ t.pc = s.params.vec ∧ t.isv = true ∧
    t.gie = false ∧ t.slp = false ∧ t.eip = false ∧ t.ocf = !s.params.ackOnEntry ∧ SameBankBut .tifr s t ∧
    t.trace = s.trace ++ [.accept ⟨s.pc, s.gie, s.isv⟩] ∧ t.dl = s.dl ∧ t.psc = s.psc ∧ SameFaultRecord s t ∧
    SameRom s t ∧ t.agenda = s.agenda ∧ t.draws = s.draws

/-- A `RETI` after an acceptance restores `pc`, `ISV`, `GIE` and `EIP` to what they were before it; the wait stays over and the
event consumed (60_exceptions R198). -/
def Obligations.ReturnUndoesAcceptance : Prop :=
  ∀ s : State, acceptOk s = true → ∃ t u, sequencerStep s = .next t ∧ exec .reti t = .next u ∧
    u.pc = s.pc ∧ u.isv = s.isv ∧ u.gie = s.gie ∧ u.eip = s.eip ∧ u.slp = false ∧ u.ocf = !s.params.ackOnEntry ∧
    u.dl = s.dl ∧ SameBankBut .tifr s u ∧ SameFaultRecord s u ∧ u.psc = s.psc ∧ SameRom s u

/-- A match held pending while the handler ran is serviced at once after its `RETI`: the sequencer's next step, whatever clock
steps fall between, is another acceptance with the same resume address (60_exceptions R200). -/
def Obligations.HeldMatchIsServicedAfterReturn : Prop :=
  ∀ (s : State) (n : Nat), s.flt = false → s.isv = true → s.ocie = true → s.ocf = true →
    ∃ t u, exec .reti s = .next t ∧ sequencerStep (clks n t) = .next u ∧ u.isv = true ∧ u.rpc = s.rpc ∧ u.pc = s.params.vec

/-- No nesting, and the two ways of the level: while `ISV` is 1 no interrupt is acceptable whatever `GIE` holds; `ISV` rises
only by an acceptance and falls only by an executed `RETI` or by `RESET` (60_exceptions R199, R206). -/
def Obligations.LevelChangesOnlyByAcceptReturnOrReset : Prop :=
  ∀ s t : State, Steps s t →
    (s.isv = true → acceptOk s = false) ∧
    (s.isv = false → t.isv = true → Accepts s ∧ t.rpc = s.pc ∧ t.pc = s.params.vec) ∧
    (s.isv = true → t.isv = false → nextAgent s = .reset ∨ (Executes s .reti ∧ t.pc = s.rpc))

/-- `GIE` is changed only by `DINT`, `EINT`, an acceptance, `RETI` and `RESET`, each to the value of 10_state R32. -/
def Obligations.GlobalEnableWriters : Prop :=
  ∀ s t : State, Steps s t → t.gie ≠ s.gie →
    (t.gie = false ∧ (nextAgent s = .reset ∨ Accepts s ∨ Executes s .dint)) ∨
    (t.gie = true ∧ (Executes s .eint ∨ Executes s .reti))

/-- `OCF` is set only by a compare match or a reset's draw, and cleared only by an acceptance that acknowledges, by a command
that writes `TIFR`, or by a reset's draw (60_exceptions R192, R193). -/
def Obligations.PendingFlagWriters : Prop :=
  ∀ s t : State, Steps s t → t.ocf ≠ s.ocf → nextAgent s = .reset ∨
    (t.ocf = true ∧ nextAgent s = .clock ∧ s.tcnt = s.ocr ∧ countEvents isMatch t = countEvents isMatch s + 1) ∨
    (t.ocf = false ∧ ((Accepts s ∧ s.params.ackOnEntry = true) ∨ ∃ i, Executes s i ∧ Writes i .tifr))

/-- With `ACK_ON_ENTRY` true, acceptances never outrun matches: over any step the acceptances in the trace, plus 1 while a match
is pending, grow by no more than the matches and resets in it, so that at most one acceptance results from a match and
merged matches give one (45_timer R148, 60_exceptions R197; a reset may draw a set flag, 10_state R41). -/
def Obligations.AcceptancesNeverOutrunMatches : Prop :=
  ∀ (s t : State) (slack : Nat), s.params.ackOnEntry = true → Steps s t →
    countEvents isAccept s + s.ocf.toNat ≤ countEvents isMatch s + countEvents isReset s + slack →
    t.params.ackOnEntry = true ∧
    countEvents isAccept t + t.ocf.toNat ≤ countEvents isMatch t + countEvents isReset t + slack

/-- Under NoOverrun no match is dropped and none is served twice: in every run with `ACK_ON_ENTRY` true, without a reset and
without a command that writes `TIFR`, the matches, plus 1 if one was pending at the start, are as many as the acceptances, plus
1 if one is pending at the end (70_reset R240, 45_timer R148, 60_exceptions R197; NoOverrun is a premise, log 15). -/
def Obligations.EveryMatchIsAcceptedOnceWithoutOverrun : Prop :=
  ∀ (who : Nat → Agent) (r : Nat → State) (n : Nat) (new : List Event), IsRun who r → (r 0).params.ackOnEntry = true →
    (∀ k, k < n → who k ≠ .reset) → (∀ k, k < n → who k = .sequencer → ∀ i, Fetches (r k) i → ¬Writes i .tifr) →
    (r n).trace = (r 0).trace ++ new → NoOverrun (r 0).ocf new = true →
    new.countP isMatch + (r 0).ocf.toNat = new.countP isAccept + (r n).ocf.toNat

/-- Returns never outrun acceptances: over any step the returns in the trace, plus 1 while in service, grow by no more than the
acceptances (60_exceptions R198, R199: each return ends one acceptance, one level deep). -/
def Obligations.ReturnsNeverOutrunAcceptances : Prop :=
  ∀ (s t : State) (slack : Nat), Steps s t →
    countEvents isReti s + s.isv.toNat ≤ countEvents isAccept s + slack →
    countEvents isReti t + t.isv.toNat ≤ countEvents isAccept t + slack

/-! ## Faults -/

/-- A word at `pc` that is illegal, executed: fault entry with cause 1, 2 or 3 and no other effect (30_encoding R85, R90,
60_exceptions R204). -/
def Obligations.IllegalWordEntersFault : Prop :=
  ∀ (s : State) (w : Word), execOk s = true → romWord s s.pc = some w →
    let op := (opField w).toNat
    ((op = 0x0 ∨ 0xC ≤ op) → ∃ t, sequencerStep s = .next t ∧ EntersFault 1 s t) ∧
    ((1 ≤ op ∧ op ≤ 0xB) → ReservedBitSet w → ∃ t, sequencerStep s = .next t ∧ EntersFault 2 s t) ∧
    ((1 ≤ op ∧ op ≤ 5) → ¬ReservedBitSet w → w.extractLsb' 24 3 = 7 →
      ∃ t, sequencerStep s = .next t ∧ EntersFault 3 s t)

/-- A faulted sequencer is halted until `RESET`: no step of another agent changes the fault record, `pc`, the sequencer's flags,
`DL`, `RPC`, or a register other than `TCNT` and `TIFR`, the pins hold, and the clock steps on (60_exceptions R204; that the
halted sequencer's turn is a step that changes nothing is the model's, log 4). -/
def Obligations.FaultHaltsUntilReset : Prop :=
  ∀ s t : State, Steps s t → s.flt = true → nextAgent s ≠ .reset →
    SameFaultRecord s t ∧ t.pc = s.pc ∧ t.gie = s.gie ∧ t.isv = s.isv ∧ t.eip = s.eip ∧ t.slp = s.slp ∧ t.dl = s.dl ∧
    t.rpc = s.rpc ∧ (∀ i, pin t i = pin s i) ∧ (∀ reg, reg ≠ .tcnt → reg ≠ .tifr → regRead t reg = regRead s reg) ∧
    (nextAgent s = .clock → t.psc = s.psc + 1)

/-! ## The timer -/

/-- `CLK` and its `TICK` (45_timer R140, R141, R142): the divider counts modulo 1024, a tick falls where its new value is a
multiple of the factor the prescaler code selects, a tick on the threshold sets `OCF`, appends `Match` and clears or counts
the counter by the mode, any other tick counts modulo 65536, and no other state is touched, in every state. -/
def Obligations.ClockStepAndTick : Prop :=
  ∀ s : State,
    let n := (s.psc.toNat + 1) % 1024
    let isTick := ∃ e ∈ [(1, 1), (2, 8), (3, 64), (4, 256), (5, 1024)], e.1 = s.ps.toNat ∧ n % e.2 = 0
    let t := clk s
    agentStep .clock s = .next t ∧ t.psc.toNat = n ∧
    (¬isTick → t.tcnt = s.tcnt ∧ t.ocf = s.ocf ∧ t.trace = s.trace) ∧
    (isTick → s.tcnt ≠ s.ocr → t.tcnt.toNat = (s.tcnt.toNat + 1) % 65536 ∧ t.ocf = s.ocf ∧ t.trace = s.trace) ∧
    (isTick → s.tcnt = s.ocr → t.ocf = true ∧ t.trace = s.trace ++ [.compareMatch ⟨s.pc, s.gie, s.isv⟩] ∧
      t.tcnt.toNat = if s.ctc then 0 else (s.tcnt.toNat + 1) % 65536) ∧
    (∀ reg, reg ≠ .tcnt → reg ≠ .tifr → regRead t reg = regRead s reg) ∧ SameFaultRecord s t ∧ SameRom s t ∧
    t.pc = s.pc ∧ t.dl = s.dl ∧ t.rpc = s.rpc ∧ t.gie = s.gie ∧ t.isv = s.isv ∧ t.eip = s.eip ∧ t.slp = s.slp ∧
    t.agenda = s.agenda ∧ t.draws = s.draws

/-- With prescaler code 0, 6 or 7 no clock step contains a tick: the counter and the flag keep their values, no match occurs,
the divider still advances (45_timer R145). -/
def Obligations.StoppedTimerNeverTicks : Prop :=
  ∀ (s : State) (n : Nat), s.ps = 0 ∨ s.ps = 6 ∨ s.ps = 7 →
    (clks n s).tcnt = s.tcnt ∧ (clks n s).ocf = s.ocf ∧ (clks n s).trace = s.trace ∧
    (clks n s).psc.toNat = (s.psc.toNat + n) % 1024

/-- The period law (45_timer R146): in reset-on-match mode with a running prescaler, whatever the sequencer does between them
short of writing `TCNT`, `OCR` or `TCTL`, two consecutive compare matches of a run are exactly `(OCR + 1) * P` clock steps
apart, and the clock step at that distance is a match. -/
def Obligations.MatchesAreOnePeriodApart : Prop :=
  ∀ (who : Nat → Agent) (r : Nat → State) (m n p : Nat), IsRun who r → (r m).ctc = true → divisor (r m).ps = some p →
    MatchStep r m → m < n → TimerUndisturbed who r (m + 1) n →
    let c := clockSteps who (m + 1) (n + 1)
    (c ≤ matchSpacing (r m).ocr p → (MatchStep r n ↔ who n = .clock ∧ c = matchSpacing (r m).ocr p)) ∧
    (MatchStep r n → (∀ j, m < j → j < n → ¬MatchStep r j) → c = matchSpacing (r m).ocr p)

/-- Free-running mode (45_timer R144): two consecutive matches of a run in which the sequencer does not write `TCNT`, `OCR` or
`TCTL` between them are exactly 65536 ticks, `65536 * P` clock steps, apart, whatever `OCR` holds, and the clock step at that
distance is a match. -/
def Obligations.FreeRunningMatchesEvery65536Ticks : Prop :=
  ∀ (who : Nat → Agent) (r : Nat → State) (m n p : Nat), IsRun who r → (r m).ctc = false → divisor (r m).ps = some p →
    MatchStep r m → m < n → TimerUndisturbed who r (m + 1) n →
    let c := clockSteps who (m + 1) (n + 1)
    (c ≤ freeRunSpacing p → (MatchStep r n ↔ who n = .clock ∧ c = freeRunSpacing p)) ∧
    (MatchStep r n → (∀ j, m < j → j < n → ¬MatchStep r j) → c = freeRunSpacing p)

/-- The first match (45_timer R147): in a run that starts with count `t0`, threshold `N` and a divider whose next multiple of
`P` is `k` clock steps away (`1 ≤ k ≤ P`), whatever the sequencer does short of writing `TCNT`, `OCR` or `TCTL`, the first
match is the clock step number `k + d * P`, where `d` is `N - t0`, or `65536 - t0 + N` when the counter must first wrap; no
earlier step is a match. -/
def Obligations.FirstMatchEdge : Prop :=
  ∀ (who : Nat → Agent) (r : Nat → State) (n p : Nat), IsRun who r → divisor (r 0).ps = some p →
    TimerUndisturbed who r 0 n →
    let s := r 0
    let k := p - s.psc.toNat % p
    let d := if s.tcnt.toNat ≤ s.ocr.toNat then s.ocr.toNat - s.tcnt.toNat else 65536 - s.tcnt.toNat + s.ocr.toNat
    let c := clockSteps who 0 (n + 1)
    (1 ≤ k ∧ k ≤ p) ∧ (c ≤ k + d * p → (MatchStep r n ↔ who n = .clock ∧ c = k + d * p))

/-- Threshold zero in reset-on-match mode from count 0: the counter stays 0 and every tick is a match (45_timer R150). -/
def Obligations.ThresholdZeroMatchesEveryTick : Prop :=
  ∀ (s : State) (p n : Nat), s.ctc = true → divisor s.ps = some p → s.ocr = 0 → s.tcnt = 0 →
    (clks n s).tcnt = 0 ∧ (MatchAt s n ↔ (s.psc.toNat + n + 1) % p = 0)

/-- A match while one is pending leaves the flag 1, and nothing afterwards tells it from a match that found the flag clear
(45_timer R148). -/
def Obligations.MatchesMerge : Prop :=
  ∀ s : State, clk { s with ocf := true } = { clk s with ocf := true } ∧ (MatchAt s 0 → clk { s with ocf := true } = clk s)

/-! ## Invariants of every step -/

/-- Every step, from every state that meets them, keeps the flags and the fault record consistent and the ROM's cell list
canonical (60_exceptions R203, R204, R211; 10_state R30, R34, R35; the cell list is the model's, log 6). -/
def Obligations.StepKeepsFlagsConsistent : Prop :=
  ∀ s t : State, FlagsConsistent s → Memory.wf s.params s.rom = true → Steps s t →
    FlagsConsistent t ∧ Memory.wf t.params t.rom = true

/-- The state after reset meets that invariant, and a `RESET` step leads to one that does: to consistent flags from every
state, and to a canonical ROM list from every state that has one (10_state R41, 70_reset R230; the cell list is the model's,
log 6). -/
def Obligations.ResetMeetsFlagsConsistent : Prop :=
  FlagsConsistent State.reset ∧ Memory.wf State.reset.params State.reset.rom = true ∧
  ∀ s : State, FlagsConsistent (resetStep s) ∧
    (Memory.wf s.params s.rom = true → Memory.wf (resetStep s).params (resetStep s).rom = true)

/-- `RESET` (70_reset R230): the elements with a fixed value in 10_state R41 take it, in every state; every other element
holds the draw that the step uses up, a free value (log 2); the ROM and the parameters do not change; the sequencer's first
step is then `EXEC` at address 0x00. `State.reset` has the same fixed values. -/
def Obligations.ResetLeavesTheFixedValues : Prop :=
  (∀ s : State, ∃ t, agentStep .reset s = .next t ∧
    t.pc = 0 ∧ t.gie = false ∧ t.isv = false ∧ t.eip = false ∧ t.slp = false ∧ t.flt = false ∧ t.fc = 0 ∧ t.ocie = false ∧
    (let d := Sys2Proof.Config.resetDraw s.draws;
      t.draws = s.draws + 1 ∧ t.tcnt = d.tcnt ∧ t.ocr = d.ocr ∧ t.ps = d.ps ∧ t.ctc = d.ctc ∧ t.ocf = d.ocf ∧ t.ddr = d.ddr ∧
      t.port = d.port ∧ t.dl = d.dl ∧ t.rpc = d.rpc ∧ t.fpc = d.fpc ∧ t.psc = d.psc) ∧
    SameRom s t ∧ t.agenda = s.agenda ∧ t.trace = s.trace ++ [.reset ⟨s.pc, s.gie, s.isv⟩] ∧
    ∀ n, sequencerStep (clks n t) = execStep (clks n t) ∧ (clks n t).pc = 0) ∧
  (∀ (who : Nat → Agent) (r : Nat → State) (k m : Nat), IsRun who r → k < m → who k = .reset →
    (r k).draws < (r m).draws) ∧
  State.reset.pc = 0 ∧ State.reset.gie = false ∧ State.reset.isv = false ∧ State.reset.eip = false ∧
  State.reset.slp = false ∧ State.reset.flt = false ∧ State.reset.fc = 0 ∧ State.reset.ocie = false

/-- No step, of any agent, changes a byte of the command ROM or a parameter; neither does any number of steps of a run
(10_state R42, 20_memory R61, R71). -/
def Obligations.RomAndParametersNeverChange : Prop :=
  (∀ s t : State, Steps s t → SameRom s t) ∧
  ∀ (who : Nat → Agent) (r : Nat → State), IsRun who r → ∀ n, SameRom (r 0) (r n)

/-- `DL` is read by nothing: a different value in it makes no difference to any step of any agent but in `DL` itself, not even
in the trace (10_state R29). -/
def Obligations.DataLatchIsReadByNothing : Prop :=
  ∀ (a : Agent) (s t : State) (v : BitVec 16), agentStep a s = .next t →
    ∃ v', agentStep a { s with dl := v } = .next { t with dl := v' }

/-- The prescaler divider is hidden: no sequencer step reads or writes it (10_state R37). -/
def Obligations.DividerIsHiddenFromCommands : Prop :=
  ∀ (s t : State) (v : BitVec 10), sequencerStep s = .next t →
    t.psc = s.psc ∧ sequencerStep { s with psc := v } = .next { t with psc := v }

/-- The trace is only observed: every step of every agent appends to it, at most one event, and what the step does does not
depend on what the trace holds (20_memory R74). -/
def Obligations.TraceIsOnlyObserved : Prop :=
  ∀ (a : Agent) (s t : State), agentStep a s = .next t → ∃ new : List Event, new.length ≤ 1 ∧ t.trace = s.trace ++ new ∧
    ∀ tr, agentStep a { s with trace := tr } = .next { t with trace := tr ++ new }

/-! ## The wait state -/

/-- Asleep with the interrupt off (`GIE` 0 or `OCIE` 0), nothing but `RESET` ends the wait: every other step keeps the sequencer
asleep at the same `pc` with the gate closed. The same asleep with the counter stopped and no match pending: the flag stays
clear and the prescaler stopped (70_reset R244, 60_exceptions R211; its idle turn is the model's, log 4). -/
def Obligations.WaitWithInterruptOffNeverEnds : Prop :=
  ∀ s t : State, Steps s t → nextAgent s ≠ .reset → s.slp = true →
    ((s.gie = false ∨ s.ocie = false) → t.slp = true ∧ (t.gie = false ∨ t.ocie = false) ∧ t.pc = s.pc) ∧
    (s.ocf = false → (s.ps = 0 ∨ s.ps = 6 ∨ s.ps = 7) → t.slp = true ∧ t.ocf = false ∧ t.ps = s.ps ∧ t.pc = s.pc)

/-- Asleep with the interrupt on and the timer running: every earlier turn of the sequencer finds nothing to do, and right
after the first match of 45_timer R147 its turn is an acceptance that wakes it, with the address after the `WAIT` saved
(41_sequencing R122; that a turn with nothing to do changes nothing is the model's, log 4). -/
def Obligations.FirstMatchWakesTheSequencer : Prop :=
  ∀ (s : State) (p : Nat), s.flt = false → s.slp = true → s.gie = true → s.eip = false → s.isv = false → s.ocie = true →
    s.ocf = false → divisor s.ps = some p →
    let d := if s.tcnt.toNat ≤ s.ocr.toNat then s.ocr.toNat - s.tcnt.toNat else 65536 - s.tcnt.toNat + s.ocr.toNat
    let e := p - s.psc.toNat % p + d * p
    (∀ j, j < e → sequencerStep (clks j s) = .next (clks j s)) ∧
    ∃ u, sequencerStep (clks e s) = .next u ∧ u.slp = false ∧ u.isv = true ∧ u.rpc = s.pc ∧ u.pc = s.params.vec

/-- In every weakly fair run without a reset, a sequencer that sleeps with the interrupt on and the timer running is woken
again: some later step is an acceptance (41_sequencing R122, 00_scope R7). Where the command at `VEC` is a `BTGL` of `PORT` with
the LED's mask bit and the LED pin is driven, some later step then inverts the observed level: the pin toggles again after
every such sleep (00_scope R8; the idle turns of a run are the model's, log 4). -/
def Obligations.FairRunsWakeTheSequencer : Prop :=
  ∀ (who : Nat → Agent) (r : Nat → State) (n p : Nat), IsRun who r → WeaklyFair who r → (∀ k, n ≤ k → who k ≠ .reset) →
    (r n).flt = false → (r n).slp = true → (r n).gie = true → (r n).eip = false → (r n).isv = false → (r n).ocie = true →
    divisor (r n).ps = some p →
    (∃ k, n ≤ k ∧ who k = .sequencer ∧ acceptOk (r k) = true ∧ (r (k + 1)).slp = false ∧ (r (k + 1)).isv = true ∧
      (r (k + 1)).rpc = (r n).pc) ∧
    ∀ (w : Word) (mask : BitVec 16), romWord (r n) (r n).params.vec = some w → decodeWord w = .ok (.btgl 6 mask) →
      mask.getLsbD (r n).params.ledBit.val = true → led (r n) ≠ .z →
      ∃ m, n ≤ m ∧ observed r m = (led (r m)).inverted ∧ observed r m ≠ led (r m)

/-! ## Design-time arithmetic -/

/-- The threshold chosen for a blink frequency fits the counter and, plus 1, is the nearest whole number to
`clock_rate / prescaler / (2 * blink_frequency)`, halves up; where none fits, the configuration is refused
(46_canonical_rom R162). -/
def Obligations.ChosenThresholdIsTheNearest : Prop :=
  ∀ (p : Sys2Proof.Config.Params) (blinkHz : Rat) (factor : Nat), 0 < p.clockHz → 0 < blinkHz → prescaler p = some factor →
    let q := p.clockHz / (factor : Rat) / (2 * blinkHz)
    (∀ t : Nat, chooseThreshold p blinkHz = .ok t ↔
      (1 ≤ t ∧ t ≤ 65535) ∧ (t : Rat) + 1 - 1 / 2 ≤ q ∧ q < (t : Rat) + 1 + 1 / 2) ∧
    ((∀ t, chooseThreshold p blinkHz ≠ .ok t) → chooseThreshold p blinkHz = .error .thresholdOutOfRange)

/-- A machine is built exactly when the clock is positive, the prescaler runs, the threshold lies in `[1, 65535]`, the handler
starts outside the initialization and idle code of the chosen image, and it fits into the ROM; it then has those parameters,
the image as its ROM and the state after reset (00_scope R9; refusing the clock, the prescaler, the vector and the handler at
build time is the model's choice, log 12 and log 13, and so is that the image declares the lengths of its code, one block from
0x00, and of its handler, log 18). A machine built with either canonical image compares against the
threshold itself and has its handler whole at `VEC` (46_canonical_rom R160, R166). -/
def Obligations.OnlyValidParametersAreBuilt : Prop :=
  (∀ (p : Sys2Proof.Config.Params) (image : Image) (s : State), State.build p image = .ok s ↔
    s = State.boot p (Memory.ofImage p image.word) ∧ 0 < p.clockHz ∧ (1 ≤ p.psCode.toNat ∧ p.psCode.toNat ≤ 5) ∧
      (1 ≤ p.threshold ∧ p.threshold ≤ 65535) ∧ image.codeLength ≤ p.vec.toNat ∧
      p.vec.toNat + image.handlerLength ≤ 256) ∧
  ∀ (p : Sys2Proof.Config.Params) (s : State),
    (State.build p (imageA p) = .ok s → 0x0C ≤ p.vec.toNat ∧ p.vec.toNat ≤ 0xFE ∧
      (∃ w imm, romWord s 0x02 = some w ∧ decodeWord w = .ok (.wr 1 imm) ∧ imm.toNat = p.threshold) ∧
      ∀ k w, (handlerAWords p)[k]? = some w → romWord s (BitVec.ofNat 8 (p.vec.toNat + k)) = some w) ∧
    (State.build p (imageB p) = .ok s → 0x0C ≤ p.vec.toNat ∧ p.vec.toNat ≤ 0xFD ∧
      (∃ w imm, romWord s 0x02 = some w ∧ decodeWord w = .ok (.wr 1 imm) ∧ imm.toNat = p.threshold) ∧
      ∀ k w, (handlerBWords p)[k]? = some w → romWord s (BitVec.ofNat 8 (p.vec.toNat + k)) = some w)
end

