-- ==== Sys2Proof/Laws/Encoding.lean ====
section
/-! SUPPORT. The fields of the four formats, the bits a format leaves zero, and the bytes of a word. -/

namespace Sys2Proof

@[simp] theorem opField_formatW (o : Opcode) (r : BitVec 3) (imm : BitVec 16) : opField (formatW o r imm) = o.bits := by
  apply BitVec.eq_of_getLsbD_eq; intro i hi
  simp only [opField, formatW, BitVec.getLsbD_extractLsb', BitVec.getLsbD_append]
  interval_cases i <;> simp

@[simp] theorem regField_formatW (o : Opcode) (r : BitVec 3) (imm : BitVec 16) : regField (formatW o r imm) = r := by
  apply BitVec.eq_of_getLsbD_eq; intro i hi
  simp only [regField, formatW, BitVec.getLsbD_extractLsb', BitVec.getLsbD_append]
  interval_cases i <;> simp

@[simp] theorem immField_formatW (o : Opcode) (r : BitVec 3) (imm : BitVec 16) : immField (formatW o r imm) = imm := by
  apply BitVec.eq_of_getLsbD_eq; intro i hi
  simp only [immField, formatW, BitVec.getLsbD_extractLsb', BitVec.getLsbD_append]
  simp [hi]

theorem formatW_mbz (o : Opcode) (r : BitVec 3) (imm : BitVec 16) : formatW o r imm &&& Format.w.mbz = 0 := by
  apply BitVec.eq_of_getLsbD_eq; intro i hi
  simp only [formatW, BitVec.getLsbD_and, BitVec.getLsbD_append, Format.mbz]
  interval_cases i <;> simp

@[simp] theorem opField_formatR (o : Opcode) (r : BitVec 3) : opField (formatR o r) = o.bits := by
  apply BitVec.eq_of_getLsbD_eq; intro i hi
  simp only [opField, formatR, BitVec.getLsbD_extractLsb', BitVec.getLsbD_append]
  interval_cases i <;> simp

@[simp] theorem regField_formatR (o : Opcode) (r : BitVec 3) : regField (formatR o r) = r := by
  apply BitVec.eq_of_getLsbD_eq; intro i hi
  simp only [regField, formatR, BitVec.getLsbD_extractLsb', BitVec.getLsbD_append]
  interval_cases i <;> simp

theorem formatR_mbz (o : Opcode) (r : BitVec 3) : formatR o r &&& Format.r.mbz = 0 := by
  apply BitVec.eq_of_getLsbD_eq; intro i hi
  simp only [formatR, BitVec.getLsbD_and, BitVec.getLsbD_append, Format.mbz]
  interval_cases i <;> simp

@[simp] theorem opField_formatJ (o : Opcode) (a : BitVec 8) : opField (formatJ o a) = o.bits := by
  apply BitVec.eq_of_getLsbD_eq; intro i hi
  simp only [opField, formatJ, BitVec.getLsbD_extractLsb', BitVec.getLsbD_append]
  interval_cases i <;> simp

@[simp] theorem addrField_formatJ (o : Opcode) (a : BitVec 8) : addrField (formatJ o a) = a := by
  apply BitVec.eq_of_getLsbD_eq; intro i hi
  simp only [addrField, formatJ, BitVec.getLsbD_extractLsb', BitVec.getLsbD_append]
  simp [hi]

theorem formatJ_mbz (o : Opcode) (a : BitVec 8) : formatJ o a &&& Format.j.mbz = 0 := by
  apply BitVec.eq_of_getLsbD_eq; intro i hi
  simp only [formatJ, BitVec.getLsbD_and, BitVec.getLsbD_append, Format.mbz]
  interval_cases i <;> simp

@[simp] theorem opField_formatZ (o : Opcode) : opField (formatZ o) = o.bits := by cases o <;> rfl

theorem formatZ_mbz (o : Opcode) : formatZ o &&& Format.z.mbz = 0 := by cases o <;> rfl

/-- The opcode map and the opcodes' numbers are one table. -/
@[simp] theorem ofBits_bits (o : Opcode) : Opcode.ofBits o.bits = some o := by cases o <;> rfl

theorem bits_of_ofBits {op : BitVec 4} {o : Opcode} (h : Opcode.ofBits op = some o) : o.bits = op := by
  have hall : ∀ op : BitVec 4, (Opcode.ofBits op).all fun o => o.bits == op := by decide
  have := hall op
  rw [h] at this
  simpa using this

/-- A nonzero bit pattern under a mask is a nonzero bit of the mask. -/
theorem and_eq_zero_iff_bits (w m : Word) : w &&& m = 0 ↔ ∀ i, i < 32 → m.getLsbD i = true → w.getLsbD i = false := by
  constructor
  · intro h i _ hm
    have := congrArg (fun v : Word => v.getLsbD i) h
    simpa [BitVec.getLsbD_and, hm] using this
  · intro h
    apply BitVec.eq_of_getLsbD_eq; intro i hi
    cases hm : m.getLsbD i with
    | false => simp [BitVec.getLsbD_and, hm]
    | true => simp [BitVec.getLsbD_and, h i hi hm]

/-- The bytes of a word make the word again. -/
theorem wordOfBytes_bytesOfWord (w : Word) :
    wordOfBytes (w.extractLsb' 0 8) (w.extractLsb' 8 8) (w.extractLsb' 16 8) (w.extractLsb' 24 8) = w := by
  apply BitVec.eq_of_getLsbD_eq; intro i hi
  simp only [wordOfBytes, BitVec.getLsbD_append, BitVec.getLsbD_extractLsb']
  interval_cases i <;> simp

/-- Decoding the serialised bytes of a legal word. -/
theorem decode_bytesOfWord_of_ok {w : Word} {i : Instr} (rest : List Byte) (h : decodeWord w = .ok i) :
    decode (bytesOfWord w ++ rest) = .ok (i, rest) := by
  simp only [bytesOfWord, List.cons_append, List.nil_append, decode, wordOfBytes_bytesOfWord, h]

/-- Decoding the serialised bytes of an illegal word. -/
theorem decode_bytesOfWord_of_error {w : Word} {why : IllegalWord} (rest : List Byte) (h : decodeWord w = .error why) :
    decode (bytesOfWord w ++ rest) = .error (.illegal why) := by
  simp only [bytesOfWord, List.cons_append, List.nil_append, decode, wordOfBytes_bytesOfWord, h]

end Sys2Proof
end

