-- ==== Sys2Proof/Laws/Memory.lean ====
section
/-! SUPPORT. The ROM's cell list: programming a byte changes that byte and no other, every operation keeps the canonical
form, and a fetch never leaves the image. -/

namespace Sys2Proof.Machine.Memory

theorem lookup_erase_self (m : List Host.Cell) (a : Nat) : lookup (erase m a) a = none := by
  induction m with
  | nil => rfl
  | cons c rest ih =>
    obtain ⟨k, b⟩ := c
    by_cases h : k = a
    · simp [erase, h, ih]
    · simp [erase, h, lookup, ih, Ne.symm h]

theorem lookup_erase_of_ne (m : List Host.Cell) {a c : Nat} (h : c ≠ a) : lookup (erase m a) c = lookup m c := by
  induction m with
  | nil => rfl
  | cons x rest ih =>
    obtain ⟨k, b⟩ := x
    by_cases hk : k = a
    · subst hk; simp [erase, lookup, ih, h]
    · simp [erase, hk, lookup, ih]

theorem lookup_insert_self (m : List Host.Cell) (a : Nat) (b : Byte) (h : lookup m a = none) :
    lookup (insert m a b) a = some b := by
  induction m with
  | nil => simp [insert, lookup]
  | cons x rest ih =>
    obtain ⟨k, c⟩ := x
    by_cases hk : a = k
    · simp [lookup, hk] at h
    · simp only [lookup, if_neg hk] at h
      by_cases hlt : a < k
      · simp [insert, hlt, lookup]
      · simp [insert, hlt, lookup, hk, ih h]

theorem lookup_insert_of_ne (m : List Host.Cell) {a c : Nat} (b : Byte) (h : c ≠ a) :
    lookup (insert m a b) c = lookup m c := by
  induction m with
  | nil => simp [insert, lookup, h]
  | cons x rest ih =>
    obtain ⟨k, d⟩ := x
    by_cases hlt : a < k
    · simp [insert, hlt, lookup, h]
    · simp [insert, hlt, lookup, ih]

/-- Read after write: the byte programmed. -/
@[simp] theorem byteAt_put_self (p : Config.Params) (m : List Host.Cell) (a : Nat) (b : Byte) :
    byteAt p (put p m a b) a = b := by
  unfold put byteAt
  split
  · next h => simp [lookup_erase_self, h]
  · simp [lookup_insert_self _ _ _ (lookup_erase_self m a)]

/-- Read after write: every other byte as before. -/
theorem byteAt_put_of_ne (p : Config.Params) (m : List Host.Cell) {a c : Nat} (b : Byte) (h : c ≠ a) :
    byteAt p (put p m a b) c = byteAt p m c := by
  unfold put byteAt
  split
  · simp [lookup_erase_of_ne m h]
  · simp [lookup_insert_of_ne _ b h, lookup_erase_of_ne m h]

theorem rising_weaken {lo : Option Nat} {k : Nat} {m : List Host.Cell} (h : rising (some k) m)
    (hlo : ∀ l, lo = some l → l ≤ k) : rising lo m := by
  cases m with
  | nil => cases lo <;> rfl
  | cons x rest =>
    obtain ⟨a, b⟩ := x
    simp only [rising, Bool.and_eq_true, decide_eq_true_eq] at h
    cases lo with
    | none => simpa [rising] using h.2
    | some l =>
      have := hlo l rfl
      simp only [rising, Bool.and_eq_true, decide_eq_true_eq]
      exact ⟨by omega, h.2⟩

theorem rising_tail {lo : Option Nat} {x : Host.Cell} {rest : List Host.Cell} (h : rising lo (x :: rest)) :
    rising (some x.1) rest := by
  obtain ⟨a, b⟩ := x
  cases lo with
  | none => simpa [rising] using h
  | some l => simp only [rising, Bool.and_eq_true] at h; exact h.2

theorem rising_head {lo : Option Nat} {x : Host.Cell} {rest : List Host.Cell} (h : rising lo (x :: rest)) :
    ∀ l, lo = some l → l < x.1 := by
  rintro l rfl
  obtain ⟨a, b⟩ := x
  simp only [rising, Bool.and_eq_true, decide_eq_true_eq] at h
  exact h.1

theorem rising_cons {lo : Option Nat} {x : Host.Cell} {rest : List Host.Cell} (hlo : ∀ l, lo = some l → l < x.1)
    (h : rising (some x.1) rest) : rising lo (x :: rest) := by
  obtain ⟨a, b⟩ := x
  cases lo with
  | none => simpa [rising] using h
  | some l =>
    simp only [rising, Bool.and_eq_true, decide_eq_true_eq]
    exact ⟨hlo l rfl, h⟩

theorem rising_erase {lo : Option Nat} {m : List Host.Cell} (a : Nat) (h : rising lo m) : rising lo (erase m a) := by
  induction m generalizing lo with
  | nil => exact h
  | cons x rest ih =>
    have ht := ih (rising_tail h)
    by_cases hk : x.1 = a
    · simp only [erase, hk, if_true]
      exact rising_weaken ht fun l hl => Nat.le_of_lt (rising_head h l hl)
    · simp only [erase, hk, if_false]
      exact rising_cons (rising_head h) ht

theorem rising_insert {lo : Option Nat} {m : List Host.Cell} {a : Nat} (b : Byte) (h : rising lo m)
    (hlo : ∀ l, lo = some l → l < a) (hnew : lookup m a = none) : rising lo (insert m a b) := by
  induction m generalizing lo with
  | nil => exact rising_cons (x := (a, b)) hlo rfl
  | cons x rest ih =>
    obtain ⟨k, c⟩ := x
    have hk : a ≠ k := by rintro rfl; simp [lookup] at hnew
    simp only [lookup, if_neg hk] at hnew
    by_cases hlt : a < k
    · simp only [insert, hlt, if_true]
      exact rising_cons (x := (a, b)) hlo (rising_cons (by rintro l ⟨⟩; exact hlt) (rising_tail h))
    · simp only [insert, hlt, if_false]
      refine rising_cons (rising_head h) (ih (rising_tail h) ?_ hnew)
      rintro l ⟨⟩
      show k < a
      omega

theorem all_erase {q : Host.Cell → Bool} {m : List Host.Cell} (a : Nat) (h : m.all q) : (erase m a).all q := by
  induction m with
  | nil => rfl
  | cons x rest ih =>
    obtain ⟨k, b⟩ := x
    simp only [List.all_cons, Bool.and_eq_true] at h
    by_cases hk : k = a
    · simpa [erase, hk] using ih h.2
    · simp only [erase, hk, if_false, List.all_cons, Bool.and_eq_true]
      exact ⟨h.1, ih h.2⟩

theorem all_insert {q : Host.Cell → Bool} {m : List Host.Cell} {a : Nat} {b : Byte} (h : m.all q) (hq : q (a, b)) :
    (insert m a b).all q := by
  induction m with
  | nil => simp [insert, hq]
  | cons x rest ih =>
    obtain ⟨k, c⟩ := x
    have hx := h
    simp only [List.all_cons, Bool.and_eq_true] at hx
    by_cases hlt : a < k
    · simp only [insert, hlt, if_true, List.all_cons, Bool.and_eq_true]
      exact ⟨hq, hx⟩
    · simp only [insert, hlt, if_false, List.all_cons, Bool.and_eq_true]
      exact ⟨hx.1, ih hx.2⟩

/-- Programming a byte of the image keeps the canonical form. -/
theorem wf_put {p : Config.Params} {m : List Host.Cell} {a : Nat} (b : Byte) (ha : a < size) (h : wf p m) :
    wf p (put p m a b) := by
  simp only [wf, Bool.and_eq_true] at h ⊢
  unfold put
  split
  · exact ⟨rising_erase a h.1, all_erase a h.2⟩
  · next hb =>
    refine ⟨rising_insert b (rising_erase a h.1) (by simp) (lookup_erase_self m a), all_insert (all_erase a h.2) ?_⟩
    simp [ha, hb]

/-- Writing a byte, where it answers, keeps the canonical form. -/
theorem wf_write {p : Config.Params} {m m' : List Host.Cell} {a : Nat} {b : Byte} (h : wf p m)
    (hw : write p m a b = some m') : wf p m' := by
  unfold write at hw
  split at hw
  · next ha => cases hw; exact wf_put b ha h
  · cases hw

theorem wordAddr_lt (a : RomAddr) (k : Nat) (hk : k < 4) : 4 * a.toNat + k < size := by
  have := a.isLt
  simp only [size]
  omega

/-- Programming a word keeps the canonical form. -/
theorem wf_putWord {p : Config.Params} {m : List Host.Cell} (a : RomAddr) (w : Word) (h : wf p m) :
    wf p (putWord p m a w) := by
  simp only [putWord]
  exact wf_put _ (wordAddr_lt a 3 (by omega)) (wf_put _ (wordAddr_lt a 2 (by omega))
    (wf_put _ (wordAddr_lt a 1 (by omega)) (wf_put _ (wordAddr_lt a 0 (by omega)) h)))

/-- Programming a run of words keeps the canonical form. -/
theorem wf_putWords {p : Config.Params} {m : List Host.Cell} (a : RomAddr) (ws : List Word) (h : wf p m) :
    wf p (putWords p m a ws) := by
  induction ws generalizing m a with
  | nil => exact h
  | cons w rest ih => exact ih (a + 1) (wf_putWord a w h)

/-- A word is read from the four bytes of its address; a fetch never leaves the image. -/
theorem readWord_eq (p : Config.Params) (m : List Host.Cell) (a : RomAddr) :
    readWord p m a = some (byteAt p m (4 * a.toNat + 3) ++ byteAt p m (4 * a.toNat + 2) ++
      byteAt p m (4 * a.toNat + 1) ++ byteAt p m (4 * a.toNat)) := by
  have h0 := wordAddr_lt a 0 (by omega)
  have h1 := wordAddr_lt a 1 (by omega)
  have h2 := wordAddr_lt a 2 (by omega)
  have h3 := wordAddr_lt a 3 (by omega)
  simp only [Nat.add_zero] at h0
  simp [readWord, read, h0, h1, h2, h3]

/-- The four bytes of a word make the word again. -/
theorem byteOfWord_append (w : Word) : byteOfWord w 3 ++ byteOfWord w 2 ++ byteOfWord w 1 ++ byteOfWord w 0 = w := by
  simp only [byteOfWord]
  apply BitVec.eq_of_getLsbD_eq
  intro i hi
  simp only [BitVec.getLsbD_append, BitVec.getLsbD_extractLsb']
  by_cases h0 : i < 8
  · simp [h0]
  · by_cases h1 : i < 16
    · simp [h0, show i - 8 < 8 by omega, show 8 + (i - 8) = i by omega]
    · by_cases h2 : i < 24
      · simp [h0, show ¬ i - 8 < 8 by omega, show i - 8 - 8 < 8 by omega, show 16 + (i - 8 - 8) = i by omega]
      · simp [h0, show ¬ i - 8 < 8 by omega, show ¬ i - 8 - 8 < 8 by omega, show i - 8 - 8 - 8 < 8 by omega,
          show 24 + (i - 8 - 8 - 8) = i by omega]

/-- Programming a word changes its four bytes and no other. -/
theorem byteAt_putWord (p : Config.Params) (m : List Host.Cell) (a : RomAddr) (w : Word) (c : Nat) :
    byteAt p (putWord p m a w) c = if c / 4 = a.toNat then byteOfWord w (c % 4) else byteAt p m c := by
  simp only [putWord]
  by_cases h3 : c = 4 * a.toNat + 3
  · subst h3
    simp [show (4 * a.toNat + 3) / 4 = a.toNat by omega, show (4 * a.toNat + 3) % 4 = 3 by omega]
  rw [byteAt_put_of_ne _ _ _ h3]
  by_cases h2 : c = 4 * a.toNat + 2
  · subst h2
    simp [show (4 * a.toNat + 2) / 4 = a.toNat by omega, show (4 * a.toNat + 2) % 4 = 2 by omega]
  rw [byteAt_put_of_ne _ _ _ h2]
  by_cases h1 : c = 4 * a.toNat + 1
  · subst h1
    simp [show (4 * a.toNat + 1) / 4 = a.toNat by omega, show (4 * a.toNat + 1) % 4 = 1 by omega]
  rw [byteAt_put_of_ne _ _ _ h1]
  by_cases h0 : c = 4 * a.toNat
  · subst h0
    simp
  rw [byteAt_put_of_ne _ _ _ h0, if_neg (by omega)]

theorem rising_filter {lo : Option Nat} {m : List Host.Cell} (q : Host.Cell → Bool) (h : rising lo m) :
    rising lo (m.filter q) := by
  induction m generalizing lo with
  | nil => exact h
  | cons x rest ih =>
    have ht := ih (rising_tail h)
    by_cases hq : q x
    · rw [List.filter_cons_of_pos hq]
      exact rising_cons (rising_head h) ht
    · rw [List.filter_cons_of_neg hq]
      exact rising_weaken ht fun l hl => Nat.le_of_lt (rising_head h l hl)

theorem rising_map_range' (f : Nat → Byte) (n : Nat) : ∀ (start : Nat) (lo : Option Nat), (∀ l, lo = some l → l < start) →
    rising lo ((List.range' start n).map fun a => (a, f a)) := by
  induction n with
  | zero => intro _ lo _; cases lo <;> rfl
  | succ n ih =>
    intro start lo hlo
    rw [List.range'_succ, List.map_cons]
    exact rising_cons hlo (ih (start + 1) (some start) (by rintro l ⟨⟩; omega))

/-- The cells of an image are in canonical form. -/
theorem wf_ofImage (p : Config.Params) (image : RomAddr → Word) : wf p (ofImage p image) := by
  simp only [wf, Bool.and_eq_true]
  constructor
  · unfold ofImage
    rw [List.range_eq_range']
    exact rising_filter _ (rising_map_range' _ _ _ _ (by simp))
  · simp only [ofImage, List.all_eq_true, List.mem_filter, List.mem_map, List.mem_range]
    rintro c ⟨⟨a, ha, rfl⟩, hc⟩
    simpa [ha] using hc

theorem lookup_filter_map_range' (f g : Nat → Byte) (c : Nat) : ∀ (n start : Nat),
    (lookup (((List.range' start n).map fun a => (a, f a)).filter fun x => x.2 != g x.1) c).getD (g c) =
      if start ≤ c ∧ c < start + n then f c else g c := by
  intro n
  induction n with
  | zero => intro start; simp [lookup, show ¬ (start ≤ c ∧ c < start) by omega]
  | succ n ih =>
    intro start
    rw [List.range'_succ, List.map_cons, List.filter_cons]
    by_cases hs : c = start
    · subst hs
      by_cases hf : f c = g c
      · have := ih (c + 1)
        simp [hf, this]
      · simp [hf, lookup]
    · have heq : (start ≤ c ∧ c < start + (n + 1)) ↔ (start + 1 ≤ c ∧ c < start + 1 + n) := by omega
      simp only [heq]
      by_cases hf : f start = g start
      · simp only [hf, bne_self_eq_false, Bool.false_eq_true, if_false]
        exact ih (start + 1)
      · simp only [bne_iff_ne, ne_eq, hf, not_false_eq_true, if_true, lookup, if_neg hs]
        exact ih (start + 1)

/-- A machine built with an image reads that image's bytes. -/
theorem byteAt_ofImage (p : Config.Params) (image : RomAddr → Word) {c : Nat} (hc : c < size) :
    byteAt p (ofImage p image) c = byteOfWord (image (BitVec.ofNat 8 (c / 4))) (c % 4) := by
  have h := lookup_filter_map_range' (fun a => byteOfWord (image (BitVec.ofNat 8 (a / 4))) (a % 4)) (unlisted p) c size 0
  rw [if_pos ⟨Nat.zero_le _, by omega⟩] at h
  rw [← h]
  simp only [byteAt, ofImage, List.range_eq_range']

end Sys2Proof.Machine.Memory
end

