-- ==== Sys2Proof/Laws/PerInstr.lean ====
section
/-! SUPPORT. The statements made per command, one lemma a constructor: the fixed bits of every command's word are those of
its row of the opcode table. -/

namespace Sys2Proof.Laws.FixedBits

/-- The word of a command has its opcode's number in bits 31:28 and 0 in every must-be-zero bit of its format
(30_encoding R81, R82), whatever its operands. -/
def Statement (i : Instr) : Prop :=
  opField (encodeWord i) = i.opcode.bits ∧ encodeWord i &&& i.opcode.format.mbz = 0

theorem rd (r : BitVec 3) : Statement (.rd r) := ⟨opField_formatR _ _, formatR_mbz _ _⟩

theorem wr (r : BitVec 3) (imm : BitVec 16) : Statement (.wr r imm) := ⟨opField_formatW _ _ _, formatW_mbz _ _ _⟩

theorem bset (r : BitVec 3) (imm : BitVec 16) : Statement (.bset r imm) := ⟨opField_formatW _ _ _, formatW_mbz _ _ _⟩

theorem bclr (r : BitVec 3) (imm : BitVec 16) : Statement (.bclr r imm) := ⟨opField_formatW _ _ _, formatW_mbz _ _ _⟩

theorem btgl (r : BitVec 3) (imm : BitVec 16) : Statement (.btgl r imm) := ⟨opField_formatW _ _ _, formatW_mbz _ _ _⟩

theorem dint : Statement .dint := ⟨opField_formatZ _, formatZ_mbz _⟩

theorem eint : Statement .eint := ⟨opField_formatZ _, formatZ_mbz _⟩

theorem wait : Statement .wait := ⟨opField_formatZ _, formatZ_mbz _⟩

theorem nop : Statement .nop := ⟨opField_formatZ _, formatZ_mbz _⟩

theorem jmp (addr : BitVec 8) : Statement (.jmp addr) := ⟨opField_formatJ _ _, formatJ_mbz _ _⟩

theorem reti : Statement .reti := ⟨opField_formatZ _, formatZ_mbz _⟩

end Sys2Proof.Laws.FixedBits
end

