-- ==== Sys2Proof/Laws/State.lean ====
section
/-! SUPPORT. What each shared operation leaves in each field of State, one lemma a field, so that no proof unfolds a record
update. -/

namespace Sys2Proof.Machine

/-! `emit` -/

@[simp] theorem emit_tcnt (e : Event) (s : State) : (emit e s).tcnt = s.tcnt := rfl
@[simp] theorem emit_ocr (e : Event) (s : State) : (emit e s).ocr = s.ocr := rfl
@[simp] theorem emit_ps (e : Event) (s : State) : (emit e s).ps = s.ps := rfl
@[simp] theorem emit_ctc (e : Event) (s : State) : (emit e s).ctc = s.ctc := rfl
@[simp] theorem emit_ocie (e : Event) (s : State) : (emit e s).ocie = s.ocie := rfl
@[simp] theorem emit_ocf (e : Event) (s : State) : (emit e s).ocf = s.ocf := rfl
@[simp] theorem emit_ddr (e : Event) (s : State) : (emit e s).ddr = s.ddr := rfl
@[simp] theorem emit_port (e : Event) (s : State) : (emit e s).port = s.port := rfl
@[simp] theorem emit_pc (e : Event) (s : State) : (emit e s).pc = s.pc := rfl
@[simp] theorem emit_dl (e : Event) (s : State) : (emit e s).dl = s.dl := rfl
@[simp] theorem emit_rpc (e : Event) (s : State) : (emit e s).rpc = s.rpc := rfl
@[simp] theorem emit_gie (e : Event) (s : State) : (emit e s).gie = s.gie := rfl
@[simp] theorem emit_isv (e : Event) (s : State) : (emit e s).isv = s.isv := rfl
@[simp] theorem emit_eip (e : Event) (s : State) : (emit e s).eip = s.eip := rfl
@[simp] theorem emit_slp (e : Event) (s : State) : (emit e s).slp = s.slp := rfl
@[simp] theorem emit_flt (e : Event) (s : State) : (emit e s).flt = s.flt := rfl
@[simp] theorem emit_fc (e : Event) (s : State) : (emit e s).fc = s.fc := rfl
@[simp] theorem emit_fpc (e : Event) (s : State) : (emit e s).fpc = s.fpc := rfl
@[simp] theorem emit_psc (e : Event) (s : State) : (emit e s).psc = s.psc := rfl
@[simp] theorem emit_params (e : Event) (s : State) : (emit e s).params = s.params := rfl
@[simp] theorem emit_rom (e : Event) (s : State) : (emit e s).rom = s.rom := rfl
@[simp] theorem emit_agenda (e : Event) (s : State) : (emit e s).agenda = s.agenda := rfl
@[simp] theorem emit_draws (e : Event) (s : State) : (emit e s).draws = s.draws := rfl
@[simp] theorem emit_trace (e : Event) (s : State) : (emit e s).trace = s.trace ++ [e] := rfl

/-! `complete` -/

@[simp] theorem complete_tcnt (s : State) : (complete s).tcnt = s.tcnt := rfl
@[simp] theorem complete_ocr (s : State) : (complete s).ocr = s.ocr := rfl
@[simp] theorem complete_ps (s : State) : (complete s).ps = s.ps := rfl
@[simp] theorem complete_ctc (s : State) : (complete s).ctc = s.ctc := rfl
@[simp] theorem complete_ocie (s : State) : (complete s).ocie = s.ocie := rfl
@[simp] theorem complete_ocf (s : State) : (complete s).ocf = s.ocf := rfl
@[simp] theorem complete_ddr (s : State) : (complete s).ddr = s.ddr := rfl
@[simp] theorem complete_port (s : State) : (complete s).port = s.port := rfl
@[simp] theorem complete_pc (s : State) : (complete s).pc = s.pc + 1 := rfl
@[simp] theorem complete_dl (s : State) : (complete s).dl = s.dl := rfl
@[simp] theorem complete_rpc (s : State) : (complete s).rpc = s.rpc := rfl
@[simp] theorem complete_gie (s : State) : (complete s).gie = s.gie := rfl
@[simp] theorem complete_isv (s : State) : (complete s).isv = s.isv := rfl
@[simp] theorem complete_eip (s : State) : (complete s).eip = false := rfl
@[simp] theorem complete_slp (s : State) : (complete s).slp = s.slp := rfl
@[simp] theorem complete_flt (s : State) : (complete s).flt = s.flt := rfl
@[simp] theorem complete_fc (s : State) : (complete s).fc = s.fc := rfl
@[simp] theorem complete_fpc (s : State) : (complete s).fpc = s.fpc := rfl
@[simp] theorem complete_psc (s : State) : (complete s).psc = s.psc := rfl
@[simp] theorem complete_params (s : State) : (complete s).params = s.params := rfl
@[simp] theorem complete_rom (s : State) : (complete s).rom = s.rom := rfl
@[simp] theorem complete_agenda (s : State) : (complete s).agenda = s.agenda := rfl
@[simp] theorem complete_draws (s : State) : (complete s).draws = s.draws := rfl
@[simp] theorem complete_trace (s : State) : (complete s).trace = s.trace := rfl

/-! `regWrite` -/

@[simp] theorem regWrite_pc (s : State) (reg : Reg) (v : RegValue) : (regWrite s reg v).pc = s.pc := by cases reg <;> rfl
@[simp] theorem regWrite_dl (s : State) (reg : Reg) (v : RegValue) : (regWrite s reg v).dl = s.dl := by cases reg <;> rfl
@[simp] theorem regWrite_rpc (s : State) (reg : Reg) (v : RegValue) : (regWrite s reg v).rpc = s.rpc := by cases reg <;> rfl
@[simp] theorem regWrite_gie (s : State) (reg : Reg) (v : RegValue) : (regWrite s reg v).gie = s.gie := by cases reg <;> rfl
@[simp] theorem regWrite_isv (s : State) (reg : Reg) (v : RegValue) : (regWrite s reg v).isv = s.isv := by cases reg <;> rfl
@[simp] theorem regWrite_eip (s : State) (reg : Reg) (v : RegValue) : (regWrite s reg v).eip = s.eip := by cases reg <;> rfl
@[simp] theorem regWrite_slp (s : State) (reg : Reg) (v : RegValue) : (regWrite s reg v).slp = s.slp := by cases reg <;> rfl
@[simp] theorem regWrite_flt (s : State) (reg : Reg) (v : RegValue) : (regWrite s reg v).flt = s.flt := by cases reg <;> rfl
@[simp] theorem regWrite_fc (s : State) (reg : Reg) (v : RegValue) : (regWrite s reg v).fc = s.fc := by cases reg <;> rfl
@[simp] theorem regWrite_fpc (s : State) (reg : Reg) (v : RegValue) : (regWrite s reg v).fpc = s.fpc := by cases reg <;> rfl
@[simp] theorem regWrite_psc (s : State) (reg : Reg) (v : RegValue) : (regWrite s reg v).psc = s.psc := by cases reg <;> rfl
@[simp] theorem regWrite_params (s : State) (reg : Reg) (v : RegValue) : (regWrite s reg v).params = s.params := by cases reg <;> rfl
@[simp] theorem regWrite_rom (s : State) (reg : Reg) (v : RegValue) : (regWrite s reg v).rom = s.rom := by cases reg <;> rfl
@[simp] theorem regWrite_agenda (s : State) (reg : Reg) (v : RegValue) : (regWrite s reg v).agenda = s.agenda := by cases reg <;> rfl
@[simp] theorem regWrite_draws (s : State) (reg : Reg) (v : RegValue) : (regWrite s reg v).draws = s.draws := by cases reg <;> rfl
@[simp] theorem regWrite_trace (s : State) (reg : Reg) (v : RegValue) : (regWrite s reg v).trace = s.trace := by cases reg <;> rfl

/-! `raiseFault` -/

@[simp] theorem raiseFault_tcnt (c : FaultCause) (s : State) : (raiseFault c s).tcnt = s.tcnt := rfl
@[simp] theorem raiseFault_ocr (c : FaultCause) (s : State) : (raiseFault c s).ocr = s.ocr := rfl
@[simp] theorem raiseFault_ps (c : FaultCause) (s : State) : (raiseFault c s).ps = s.ps := rfl
@[simp] theorem raiseFault_ctc (c : FaultCause) (s : State) : (raiseFault c s).ctc = s.ctc := rfl
@[simp] theorem raiseFault_ocie (c : FaultCause) (s : State) : (raiseFault c s).ocie = s.ocie := rfl
@[simp] theorem raiseFault_ocf (c : FaultCause) (s : State) : (raiseFault c s).ocf = s.ocf := rfl
@[simp] theorem raiseFault_ddr (c : FaultCause) (s : State) : (raiseFault c s).ddr = s.ddr := rfl
@[simp] theorem raiseFault_port (c : FaultCause) (s : State) : (raiseFault c s).port = s.port := rfl
@[simp] theorem raiseFault_pc (c : FaultCause) (s : State) : (raiseFault c s).pc = s.pc := rfl
@[simp] theorem raiseFault_dl (c : FaultCause) (s : State) : (raiseFault c s).dl = s.dl := rfl
@[simp] theorem raiseFault_rpc (c : FaultCause) (s : State) : (raiseFault c s).rpc = s.rpc := rfl
@[simp] theorem raiseFault_gie (c : FaultCause) (s : State) : (raiseFault c s).gie = s.gie := rfl
@[simp] theorem raiseFault_isv (c : FaultCause) (s : State) : (raiseFault c s).isv = s.isv := rfl
@[simp] theorem raiseFault_eip (c : FaultCause) (s : State) : (raiseFault c s).eip = s.eip := rfl
@[simp] theorem raiseFault_slp (c : FaultCause) (s : State) : (raiseFault c s).slp = s.slp := rfl
@[simp] theorem raiseFault_flt (c : FaultCause) (s : State) : (raiseFault c s).flt = true := rfl
@[simp] theorem raiseFault_fc (c : FaultCause) (s : State) : (raiseFault c s).fc = c.code := rfl
@[simp] theorem raiseFault_fpc (c : FaultCause) (s : State) : (raiseFault c s).fpc = s.pc := rfl
@[simp] theorem raiseFault_psc (c : FaultCause) (s : State) : (raiseFault c s).psc = s.psc := rfl
@[simp] theorem raiseFault_params (c : FaultCause) (s : State) : (raiseFault c s).params = s.params := rfl
@[simp] theorem raiseFault_rom (c : FaultCause) (s : State) : (raiseFault c s).rom = s.rom := rfl
@[simp] theorem raiseFault_agenda (c : FaultCause) (s : State) : (raiseFault c s).agenda = s.agenda := rfl
@[simp] theorem raiseFault_draws (c : FaultCause) (s : State) : (raiseFault c s).draws = s.draws := rfl
@[simp] theorem raiseFault_trace (c : FaultCause) (s : State) : (raiseFault c s).trace = s.trace ++ [.fault c.code s.stamp] := rfl

/-! `enterHandler` -/

@[simp] theorem enterHandler_tcnt (s : State) : (enterHandler s).tcnt = s.tcnt := rfl
@[simp] theorem enterHandler_ocr (s : State) : (enterHandler s).ocr = s.ocr := rfl
@[simp] theorem enterHandler_ps (s : State) : (enterHandler s).ps = s.ps := rfl
@[simp] theorem enterHandler_ctc (s : State) : (enterHandler s).ctc = s.ctc := rfl
@[simp] theorem enterHandler_ocie (s : State) : (enterHandler s).ocie = s.ocie := rfl
@[simp] theorem enterHandler_ocf (s : State) : (enterHandler s).ocf = if s.params.ackOnEntry then false else s.ocf := rfl
@[simp] theorem enterHandler_ddr (s : State) : (enterHandler s).ddr = s.ddr := rfl
@[simp] theorem enterHandler_port (s : State) : (enterHandler s).port = s.port := rfl
@[simp] theorem enterHandler_pc (s : State) : (enterHandler s).pc = s.params.vec := rfl
@[simp] theorem enterHandler_dl (s : State) : (enterHandler s).dl = s.dl := rfl
@[simp] theorem enterHandler_rpc (s : State) : (enterHandler s).rpc = s.pc := rfl
@[simp] theorem enterHandler_gie (s : State) : (enterHandler s).gie = false := rfl
@[simp] theorem enterHandler_isv (s : State) : (enterHandler s).isv = true := rfl
@[simp] theorem enterHandler_eip (s : State) : (enterHandler s).eip = false := rfl
@[simp] theorem enterHandler_slp (s : State) : (enterHandler s).slp = false := rfl
@[simp] theorem enterHandler_flt (s : State) : (enterHandler s).flt = s.flt := rfl
@[simp] theorem enterHandler_fc (s : State) : (enterHandler s).fc = s.fc := rfl
@[simp] theorem enterHandler_fpc (s : State) : (enterHandler s).fpc = s.fpc := rfl
@[simp] theorem enterHandler_psc (s : State) : (enterHandler s).psc = s.psc := rfl
@[simp] theorem enterHandler_params (s : State) : (enterHandler s).params = s.params := rfl
@[simp] theorem enterHandler_rom (s : State) : (enterHandler s).rom = s.rom := rfl
@[simp] theorem enterHandler_agenda (s : State) : (enterHandler s).agenda = s.agenda := rfl
@[simp] theorem enterHandler_draws (s : State) : (enterHandler s).draws = s.draws := rfl
@[simp] theorem enterHandler_trace (s : State) : (enterHandler s).trace = s.trace ++ [.accept s.stamp] := rfl

/-! `leaveHandler` -/

@[simp] theorem leaveHandler_tcnt (s : State) : (leaveHandler s).tcnt = s.tcnt := rfl
@[simp] theorem leaveHandler_ocr (s : State) : (leaveHandler s).ocr = s.ocr := rfl
@[simp] theorem leaveHandler_ps (s : State) : (leaveHandler s).ps = s.ps := rfl
@[simp] theorem leaveHandler_ctc (s : State) : (leaveHandler s).ctc = s.ctc := rfl
@[simp] theorem leaveHandler_ocie (s : State) : (leaveHandler s).ocie = s.ocie := rfl
@[simp] theorem leaveHandler_ocf (s : State) : (leaveHandler s).ocf = s.ocf := rfl
@[simp] theorem leaveHandler_ddr (s : State) : (leaveHandler s).ddr = s.ddr := rfl
@[simp] theorem leaveHandler_port (s : State) : (leaveHandler s).port = s.port := rfl
@[simp] theorem leaveHandler_pc (s : State) : (leaveHandler s).pc = s.rpc := rfl
@[simp] theorem leaveHandler_dl (s : State) : (leaveHandler s).dl = s.dl := rfl
@[simp] theorem leaveHandler_rpc (s : State) : (leaveHandler s).rpc = s.rpc := rfl
@[simp] theorem leaveHandler_gie (s : State) : (leaveHandler s).gie = true := rfl
@[simp] theorem leaveHandler_isv (s : State) : (leaveHandler s).isv = false := rfl
@[simp] theorem leaveHandler_eip (s : State) : (leaveHandler s).eip = false := rfl
@[simp] theorem leaveHandler_slp (s : State) : (leaveHandler s).slp = s.slp := rfl
@[simp] theorem leaveHandler_flt (s : State) : (leaveHandler s).flt = s.flt := rfl
@[simp] theorem leaveHandler_fc (s : State) : (leaveHandler s).fc = s.fc := rfl
@[simp] theorem leaveHandler_fpc (s : State) : (leaveHandler s).fpc = s.fpc := rfl
@[simp] theorem leaveHandler_psc (s : State) : (leaveHandler s).psc = s.psc := rfl
@[simp] theorem leaveHandler_params (s : State) : (leaveHandler s).params = s.params := rfl
@[simp] theorem leaveHandler_rom (s : State) : (leaveHandler s).rom = s.rom := rfl
@[simp] theorem leaveHandler_agenda (s : State) : (leaveHandler s).agenda = s.agenda := rfl
@[simp] theorem leaveHandler_draws (s : State) : (leaveHandler s).draws = s.draws := rfl
@[simp] theorem leaveHandler_trace (s : State) : (leaveHandler s).trace = s.trace ++ [.reti s.stamp] := rfl

/-! `readModifyWrite` -/

@[simp] theorem readModifyWrite_pc (kind : BusKind) (reg : Reg) (new : RegValue) (s : State) : (readModifyWrite kind reg new s).pc = s.pc + 1 := by cases reg <;> rfl
@[simp] theorem readModifyWrite_dl (kind : BusKind) (reg : Reg) (new : RegValue) (s : State) : (readModifyWrite kind reg new s).dl = s.dl := by cases reg <;> rfl
@[simp] theorem readModifyWrite_rpc (kind : BusKind) (reg : Reg) (new : RegValue) (s : State) : (readModifyWrite kind reg new s).rpc = s.rpc := by cases reg <;> rfl
@[simp] theorem readModifyWrite_gie (kind : BusKind) (reg : Reg) (new : RegValue) (s : State) : (readModifyWrite kind reg new s).gie = s.gie := by cases reg <;> rfl
@[simp] theorem readModifyWrite_isv (kind : BusKind) (reg : Reg) (new : RegValue) (s : State) : (readModifyWrite kind reg new s).isv = s.isv := by cases reg <;> rfl
@[simp] theorem readModifyWrite_eip (kind : BusKind) (reg : Reg) (new : RegValue) (s : State) : (readModifyWrite kind reg new s).eip = false := by cases reg <;> rfl
@[simp] theorem readModifyWrite_slp (kind : BusKind) (reg : Reg) (new : RegValue) (s : State) : (readModifyWrite kind reg new s).slp = s.slp := by cases reg <;> rfl
@[simp] theorem readModifyWrite_flt (kind : BusKind) (reg : Reg) (new : RegValue) (s : State) : (readModifyWrite kind reg new s).flt = s.flt := by cases reg <;> rfl
@[simp] theorem readModifyWrite_fc (kind : BusKind) (reg : Reg) (new : RegValue) (s : State) : (readModifyWrite kind reg new s).fc = s.fc := by cases reg <;> rfl
@[simp] theorem readModifyWrite_fpc (kind : BusKind) (reg : Reg) (new : RegValue) (s : State) : (readModifyWrite kind reg new s).fpc = s.fpc := by cases reg <;> rfl
@[simp] theorem readModifyWrite_psc (kind : BusKind) (reg : Reg) (new : RegValue) (s : State) : (readModifyWrite kind reg new s).psc = s.psc := by cases reg <;> rfl
@[simp] theorem readModifyWrite_params (kind : BusKind) (reg : Reg) (new : RegValue) (s : State) : (readModifyWrite kind reg new s).params = s.params := by cases reg <;> rfl
@[simp] theorem readModifyWrite_rom (kind : BusKind) (reg : Reg) (new : RegValue) (s : State) : (readModifyWrite kind reg new s).rom = s.rom := by cases reg <;> rfl
@[simp] theorem readModifyWrite_agenda (kind : BusKind) (reg : Reg) (new : RegValue) (s : State) : (readModifyWrite kind reg new s).agenda = s.agenda := by cases reg <;> rfl
@[simp] theorem readModifyWrite_draws (kind : BusKind) (reg : Reg) (new : RegValue) (s : State) : (readModifyWrite kind reg new s).draws = s.draws := by cases reg <;> rfl
@[simp] theorem readModifyWrite_trace (kind : BusKind) (reg : Reg) (new : RegValue) (s : State) : (readModifyWrite kind reg new s).trace = s.trace ++ [.bus kind reg (some (regRead s reg)) (some new) s.stamp] := by cases reg <;> rfl

/-! `applyReset` -/

@[simp] theorem applyReset_tcnt (d : Config.ResetDraw) (s : State) : (applyReset d s).tcnt = d.tcnt := rfl
@[simp] theorem applyReset_ocr (d : Config.ResetDraw) (s : State) : (applyReset d s).ocr = d.ocr := rfl
@[simp] theorem applyReset_ps (d : Config.ResetDraw) (s : State) : (applyReset d s).ps = d.ps := rfl
@[simp] theorem applyReset_ctc (d : Config.ResetDraw) (s : State) : (applyReset d s).ctc = d.ctc := rfl
@[simp] theorem applyReset_ocie (d : Config.ResetDraw) (s : State) : (applyReset d s).ocie = false := rfl
@[simp] theorem applyReset_ocf (d : Config.ResetDraw) (s : State) : (applyReset d s).ocf = d.ocf := rfl
@[simp] theorem applyReset_ddr (d : Config.ResetDraw) (s : State) : (applyReset d s).ddr = d.ddr := rfl
@[simp] theorem applyReset_port (d : Config.ResetDraw) (s : State) : (applyReset d s).port = d.port := rfl
@[simp] theorem applyReset_pc (d : Config.ResetDraw) (s : State) : (applyReset d s).pc = 0x00 := rfl
@[simp] theorem applyReset_dl (d : Config.ResetDraw) (s : State) : (applyReset d s).dl = d.dl := rfl
@[simp] theorem applyReset_rpc (d : Config.ResetDraw) (s : State) : (applyReset d s).rpc = d.rpc := rfl
@[simp] theorem applyReset_gie (d : Config.ResetDraw) (s : State) : (applyReset d s).gie = false := rfl
@[simp] theorem applyReset_isv (d : Config.ResetDraw) (s : State) : (applyReset d s).isv = false := rfl
@[simp] theorem applyReset_eip (d : Config.ResetDraw) (s : State) : (applyReset d s).eip = false := rfl
@[simp] theorem applyReset_slp (d : Config.ResetDraw) (s : State) : (applyReset d s).slp = false := rfl
@[simp] theorem applyReset_flt (d : Config.ResetDraw) (s : State) : (applyReset d s).flt = false := rfl
@[simp] theorem applyReset_fc (d : Config.ResetDraw) (s : State) : (applyReset d s).fc = 0 := rfl
@[simp] theorem applyReset_fpc (d : Config.ResetDraw) (s : State) : (applyReset d s).fpc = d.fpc := rfl
@[simp] theorem applyReset_psc (d : Config.ResetDraw) (s : State) : (applyReset d s).psc = d.psc := rfl
@[simp] theorem applyReset_params (d : Config.ResetDraw) (s : State) : (applyReset d s).params = s.params := rfl
@[simp] theorem applyReset_rom (d : Config.ResetDraw) (s : State) : (applyReset d s).rom = s.rom := rfl
@[simp] theorem applyReset_agenda (d : Config.ResetDraw) (s : State) : (applyReset d s).agenda = s.agenda := rfl
@[simp] theorem applyReset_draws (d : Config.ResetDraw) (s : State) : (applyReset d s).draws = s.draws := rfl
@[simp] theorem applyReset_trace (d : Config.ResetDraw) (s : State) : (applyReset d s).trace = s.trace := rfl

/-! `State.boot` -/

@[simp] theorem boot_params (p : Config.Params) (rom : List Host.Cell) : (State.boot p rom).params = p := rfl
@[simp] theorem boot_rom (p : Config.Params) (rom : List Host.Cell) : (State.boot p rom).rom = rom := rfl

/-! `resetStep` -/

@[simp] theorem resetStep_tcnt (s : State) : (resetStep s).tcnt = (Config.resetDraw s.draws).tcnt := rfl
@[simp] theorem resetStep_ocr (s : State) : (resetStep s).ocr = (Config.resetDraw s.draws).ocr := rfl
@[simp] theorem resetStep_ps (s : State) : (resetStep s).ps = (Config.resetDraw s.draws).ps := rfl
@[simp] theorem resetStep_ctc (s : State) : (resetStep s).ctc = (Config.resetDraw s.draws).ctc := rfl
@[simp] theorem resetStep_ocie (s : State) : (resetStep s).ocie = false := rfl
@[simp] theorem resetStep_ocf (s : State) : (resetStep s).ocf = (Config.resetDraw s.draws).ocf := rfl
@[simp] theorem resetStep_ddr (s : State) : (resetStep s).ddr = (Config.resetDraw s.draws).ddr := rfl
@[simp] theorem resetStep_port (s : State) : (resetStep s).port = (Config.resetDraw s.draws).port := rfl
@[simp] theorem resetStep_pc (s : State) : (resetStep s).pc = 0x00 := rfl
@[simp] theorem resetStep_dl (s : State) : (resetStep s).dl = (Config.resetDraw s.draws).dl := rfl
@[simp] theorem resetStep_rpc (s : State) : (resetStep s).rpc = (Config.resetDraw s.draws).rpc := rfl
@[simp] theorem resetStep_gie (s : State) : (resetStep s).gie = false := rfl
@[simp] theorem resetStep_isv (s : State) : (resetStep s).isv = false := rfl
@[simp] theorem resetStep_eip (s : State) : (resetStep s).eip = false := rfl
@[simp] theorem resetStep_slp (s : State) : (resetStep s).slp = false := rfl
@[simp] theorem resetStep_flt (s : State) : (resetStep s).flt = false := rfl
@[simp] theorem resetStep_fc (s : State) : (resetStep s).fc = 0 := rfl
@[simp] theorem resetStep_fpc (s : State) : (resetStep s).fpc = (Config.resetDraw s.draws).fpc := rfl
@[simp] theorem resetStep_psc (s : State) : (resetStep s).psc = (Config.resetDraw s.draws).psc := rfl
@[simp] theorem resetStep_params (s : State) : (resetStep s).params = s.params := rfl
@[simp] theorem resetStep_rom (s : State) : (resetStep s).rom = s.rom := rfl
@[simp] theorem resetStep_agenda (s : State) : (resetStep s).agenda = s.agenda := rfl
@[simp] theorem resetStep_draws (s : State) : (resetStep s).draws = s.draws + 1 := rfl
@[simp] theorem resetStep_trace (s : State) : (resetStep s).trace = s.trace ++ [.reset s.stamp] := rfl

/-! `tick` -/

@[simp] theorem tick_ocr (s : State) : (tick s).ocr = s.ocr := by unfold tick; split <;> rfl
@[simp] theorem tick_ps (s : State) : (tick s).ps = s.ps := by unfold tick; split <;> rfl
@[simp] theorem tick_ctc (s : State) : (tick s).ctc = s.ctc := by unfold tick; split <;> rfl
@[simp] theorem tick_ocie (s : State) : (tick s).ocie = s.ocie := by unfold tick; split <;> rfl
@[simp] theorem tick_ddr (s : State) : (tick s).ddr = s.ddr := by unfold tick; split <;> rfl
@[simp] theorem tick_port (s : State) : (tick s).port = s.port := by unfold tick; split <;> rfl
@[simp] theorem tick_pc (s : State) : (tick s).pc = s.pc := by unfold tick; split <;> rfl
@[simp] theorem tick_dl (s : State) : (tick s).dl = s.dl := by unfold tick; split <;> rfl
@[simp] theorem tick_rpc (s : State) : (tick s).rpc = s.rpc := by unfold tick; split <;> rfl
@[simp] theorem tick_gie (s : State) : (tick s).gie = s.gie := by unfold tick; split <;> rfl
@[simp] theorem tick_isv (s : State) : (tick s).isv = s.isv := by unfold tick; split <;> rfl
@[simp] theorem tick_eip (s : State) : (tick s).eip = s.eip := by unfold tick; split <;> rfl
@[simp] theorem tick_slp (s : State) : (tick s).slp = s.slp := by unfold tick; split <;> rfl
@[simp] theorem tick_flt (s : State) : (tick s).flt = s.flt := by unfold tick; split <;> rfl
@[simp] theorem tick_fc (s : State) : (tick s).fc = s.fc := by unfold tick; split <;> rfl
@[simp] theorem tick_fpc (s : State) : (tick s).fpc = s.fpc := by unfold tick; split <;> rfl
@[simp] theorem tick_psc (s : State) : (tick s).psc = s.psc := by unfold tick; split <;> rfl
@[simp] theorem tick_params (s : State) : (tick s).params = s.params := by unfold tick; split <;> rfl
@[simp] theorem tick_rom (s : State) : (tick s).rom = s.rom := by unfold tick; split <;> rfl
@[simp] theorem tick_agenda (s : State) : (tick s).agenda = s.agenda := by unfold tick; split <;> rfl
@[simp] theorem tick_draws (s : State) : (tick s).draws = s.draws := by unfold tick; split <;> rfl

/-! `clk` -/

@[simp] theorem clk_ocr (s : State) : (clk s).ocr = s.ocr := by unfold clk; dsimp only; split <;> simp
@[simp] theorem clk_ps (s : State) : (clk s).ps = s.ps := by unfold clk; dsimp only; split <;> simp
@[simp] theorem clk_ctc (s : State) : (clk s).ctc = s.ctc := by unfold clk; dsimp only; split <;> simp
@[simp] theorem clk_ocie (s : State) : (clk s).ocie = s.ocie := by unfold clk; dsimp only; split <;> simp
@[simp] theorem clk_ddr (s : State) : (clk s).ddr = s.ddr := by unfold clk; dsimp only; split <;> simp
@[simp] theorem clk_port (s : State) : (clk s).port = s.port := by unfold clk; dsimp only; split <;> simp
@[simp] theorem clk_pc (s : State) : (clk s).pc = s.pc := by unfold clk; dsimp only; split <;> simp
@[simp] theorem clk_dl (s : State) : (clk s).dl = s.dl := by unfold clk; dsimp only; split <;> simp
@[simp] theorem clk_rpc (s : State) : (clk s).rpc = s.rpc := by unfold clk; dsimp only; split <;> simp
@[simp] theorem clk_gie (s : State) : (clk s).gie = s.gie := by unfold clk; dsimp only; split <;> simp
@[simp] theorem clk_isv (s : State) : (clk s).isv = s.isv := by unfold clk; dsimp only; split <;> simp
@[simp] theorem clk_eip (s : State) : (clk s).eip = s.eip := by unfold clk; dsimp only; split <;> simp
@[simp] theorem clk_slp (s : State) : (clk s).slp = s.slp := by unfold clk; dsimp only; split <;> simp
@[simp] theorem clk_flt (s : State) : (clk s).flt = s.flt := by unfold clk; dsimp only; split <;> simp
@[simp] theorem clk_fc (s : State) : (clk s).fc = s.fc := by unfold clk; dsimp only; split <;> simp
@[simp] theorem clk_fpc (s : State) : (clk s).fpc = s.fpc := by unfold clk; dsimp only; split <;> simp
@[simp] theorem clk_params (s : State) : (clk s).params = s.params := by unfold clk; dsimp only; split <;> simp
@[simp] theorem clk_rom (s : State) : (clk s).rom = s.rom := by unfold clk; dsimp only; split <;> simp
@[simp] theorem clk_agenda (s : State) : (clk s).agenda = s.agenda := by unfold clk; dsimp only; split <;> simp
@[simp] theorem clk_draws (s : State) : (clk s).draws = s.draws := by unfold clk; dsimp only; split <;> simp

@[simp] theorem clk_psc (s : State) : (clk s).psc = s.psc + 1 := by unfold clk; dsimp only; split <;> simp

/-! `takeTurn` -/

@[simp] theorem takeTurn_tcnt (s : State) : (takeTurn s).tcnt = s.tcnt := rfl
@[simp] theorem takeTurn_ocr (s : State) : (takeTurn s).ocr = s.ocr := rfl
@[simp] theorem takeTurn_ps (s : State) : (takeTurn s).ps = s.ps := rfl
@[simp] theorem takeTurn_ctc (s : State) : (takeTurn s).ctc = s.ctc := rfl
@[simp] theorem takeTurn_ocie (s : State) : (takeTurn s).ocie = s.ocie := rfl
@[simp] theorem takeTurn_ocf (s : State) : (takeTurn s).ocf = s.ocf := rfl
@[simp] theorem takeTurn_ddr (s : State) : (takeTurn s).ddr = s.ddr := rfl
@[simp] theorem takeTurn_port (s : State) : (takeTurn s).port = s.port := rfl
@[simp] theorem takeTurn_pc (s : State) : (takeTurn s).pc = s.pc := rfl
@[simp] theorem takeTurn_dl (s : State) : (takeTurn s).dl = s.dl := rfl
@[simp] theorem takeTurn_rpc (s : State) : (takeTurn s).rpc = s.rpc := rfl
@[simp] theorem takeTurn_gie (s : State) : (takeTurn s).gie = s.gie := rfl
@[simp] theorem takeTurn_isv (s : State) : (takeTurn s).isv = s.isv := rfl
@[simp] theorem takeTurn_eip (s : State) : (takeTurn s).eip = s.eip := rfl
@[simp] theorem takeTurn_slp (s : State) : (takeTurn s).slp = s.slp := rfl
@[simp] theorem takeTurn_flt (s : State) : (takeTurn s).flt = s.flt := rfl
@[simp] theorem takeTurn_fc (s : State) : (takeTurn s).fc = s.fc := rfl
@[simp] theorem takeTurn_fpc (s : State) : (takeTurn s).fpc = s.fpc := rfl
@[simp] theorem takeTurn_psc (s : State) : (takeTurn s).psc = s.psc := rfl
@[simp] theorem takeTurn_params (s : State) : (takeTurn s).params = s.params := rfl
@[simp] theorem takeTurn_rom (s : State) : (takeTurn s).rom = s.rom := rfl
@[simp] theorem takeTurn_agenda (s : State) : (takeTurn s).agenda = s.agenda.tail := rfl
@[simp] theorem takeTurn_draws (s : State) : (takeTurn s).draws = s.draws + 1 := rfl
@[simp] theorem takeTurn_trace (s : State) : (takeTurn s).trace = s.trace := rfl

end Sys2Proof.Machine
end

