-- ==== Sys2Proof/Laws/Step.lean ====
section
/-! SUPPORT. What each command, each agent and the step can do, said once: the meanings case by case, the inversion of
`exec`, of the sequencer's turn and of `step`, and the laws of repeated clock steps. -/

namespace Sys2Proof.Machine

/-! Registers -/

@[simp] theorem regOfIndex_regIndex (reg : Reg) : regOfIndex (regIndex reg) = some reg := by cases reg <;> rfl

/-- An index names a register exactly when it is not 7. -/
theorem regOfIndex_cases (r : BitVec 3) : (r = 7 ∧ regOfIndex r = none) ∨ ∃ reg, r = regIndex reg := by
  have h : ∀ r : BitVec 3, (r = 7 ∧ regOfIndex r = none) ∨
      (r = 0 ∨ r = 1 ∨ r = 2 ∨ r = 3 ∨ r = 4 ∨ r = 5 ∨ r = 6) := by decide
  rcases h r with h | rfl | rfl | rfl | rfl | rfl | rfl | rfl
  · exact .inl h
  · exact .inr ⟨.tcnt, rfl⟩
  · exact .inr ⟨.ocr, rfl⟩
  · exact .inr ⟨.tctl, rfl⟩
  · exact .inr ⟨.timsk, rfl⟩
  · exact .inr ⟨.tifr, rfl⟩
  · exact .inr ⟨.ddr, rfl⟩
  · exact .inr ⟨.port, rfl⟩

theorem exists_reg_of_ne {r : BitVec 3} (h : r ≠ 7) : ∃ reg, r = regIndex reg := by
  rcases regOfIndex_cases r with ⟨h7, _⟩ | hreg
  · exact absurd h7 h
  · exact hreg

@[simp] theorem regOfIndex_seven : regOfIndex 7#3 = none := rfl

/-- A register's value depends on the bank alone. -/
theorem regRead_congr {s t : State} (h : s.tcnt = t.tcnt ∧ s.ocr = t.ocr ∧ s.ps = t.ps ∧ s.ctc = t.ctc ∧ s.ocie = t.ocie ∧
    s.ocf = t.ocf ∧ s.ddr = t.ddr ∧ s.port = t.port) (reg : Reg) : regRead s reg = regRead t reg := by
  obtain ⟨h1, h2, h3, h4, h5, h6, h7, h8⟩ := h
  cases reg <;> simp [regRead, *]

/-- A write leaves every other register as it reads. -/
theorem regRead_regWrite_of_ne (s : State) {reg reg' : Reg} (v : RegValue) (h : reg' ≠ reg) :
    regRead (regWrite s reg v) reg' = regRead s reg' := by
  cases reg <;> cases reg' <;> first | rfl | exact absurd rfl h

@[simp] theorem regRead_emit (e : Event) (s : State) (reg : Reg) : regRead (emit e s) reg = regRead s reg := by
  cases reg <;> rfl

@[simp] theorem regRead_complete (s : State) (reg : Reg) : regRead (complete s) reg = regRead s reg := by
  cases reg <;> rfl

@[simp] theorem regRead_raiseFault (c : FaultCause) (s : State) (reg : Reg) :
    regRead (raiseFault c s) reg = regRead s reg := by cases reg <;> rfl

@[simp] theorem regRead_leaveHandler (s : State) (reg : Reg) : regRead (leaveHandler s) reg = regRead s reg := by
  cases reg <;> rfl

@[simp] theorem regRead_readModifyWrite (kind : BusKind) (reg : Reg) (new : RegValue) (s : State) (reg' : Reg) :
    regRead (readModifyWrite kind reg new s) reg' = regRead (regWrite s reg new) reg' := by
  simp [readModifyWrite]

/-! The commands on a register of the bank, and on the index that names none -/

@[simp] theorem exec_rd (reg : Reg) (s : State) : exec (.rd (regIndex reg)) s =
    .next (emit (.bus .rd reg (some (regRead s reg)) none s.stamp) (complete { s with dl := regRead s reg })) := by
  simp [exec, execRd]

@[simp] theorem exec_wr (reg : Reg) (imm : BitVec 16) (s : State) : exec (.wr (regIndex reg) imm) s =
    .next (emit (.bus .wr reg none (some imm) s.stamp) (complete (regWrite s reg imm))) := by
  simp [exec, execWr]

@[simp] theorem exec_bset (reg : Reg) (imm : BitVec 16) (s : State) : exec (.bset (regIndex reg) imm) s =
    .next (readModifyWrite .bset reg (regRead s reg ||| imm) s) := by
  simp [exec, execBset]

@[simp] theorem exec_bclr (reg : Reg) (imm : BitVec 16) (s : State) : exec (.bclr (regIndex reg) imm) s =
    .next (readModifyWrite .bclr reg (regRead s reg &&& ~~~imm) s) := by
  simp [exec, execBclr]

@[simp] theorem exec_btgl (reg : Reg) (imm : BitVec 16) (s : State) : exec (.btgl (regIndex reg) imm) s =
    .next (readModifyWrite .btgl reg (regRead s reg ^^^ imm) s) := by
  simp [exec, execBtgl]

/-- A command that names register 7 enters fault cause 3. -/
theorem exec_of_not_wf {i : Instr} (h : i.wf = false) (s : State) : exec i s = .next (raiseFault .reservedRegister s) := by
  cases i <;> simp [Instr.wf, regOk] at h <;> subst h <;>
    simp [exec, execRd, execWr, execBset, execBclr, execBtgl]

/-- What a command can do: one case for each of its effects. Every command gives a next state. -/
theorem exec_cases (i : Instr) (s : State) :
    (i.wf = false ∧ exec i s = .next (raiseFault .reservedRegister s)) ∨
    (∃ reg, i = .rd (regIndex reg) ∧ exec i s =
      .next (emit (.bus .rd reg (some (regRead s reg)) none s.stamp) (complete { s with dl := regRead s reg }))) ∨
    (∃ reg v, i = .wr (regIndex reg) v ∧
      exec i s = .next (emit (.bus .wr reg none (some v) s.stamp) (complete (regWrite s reg v)))) ∨
    (∃ kind reg v new, ((i = .bset (regIndex reg) v ∧ kind = .bset ∧ new = regRead s reg ||| v) ∨
        (i = .bclr (regIndex reg) v ∧ kind = .bclr ∧ new = regRead s reg &&& ~~~v) ∨
        (i = .btgl (regIndex reg) v ∧ kind = .btgl ∧ new = regRead s reg ^^^ v)) ∧
      exec i s = .next (readModifyWrite kind reg new s)) ∨
    (i = .dint ∧ exec i s = .next (emit (.dint s.stamp) (complete { s with gie := false }))) ∨
    (i = .eint ∧ exec i s = .next (emit (.eint s.stamp) { complete { s with gie := true } with eip := true })) ∨
    (i = .wait ∧ s.isv = true ∧ exec i s = .next (raiseFault .waitInsideHandler s)) ∨
    (i = .wait ∧ s.isv = false ∧ exec i s = .next (emit (.wait s.stamp) (complete { s with slp := true }))) ∨
    (i = .nop ∧ exec i s = .next (complete s)) ∨
    (∃ addr, i = .jmp addr ∧ exec i s = .next { s with pc := addr, eip := false }) ∨
    (i = .reti ∧ s.isv = true ∧ exec i s = .next (leaveHandler s)) ∨
    (i = .reti ∧ s.isv = false ∧ exec i s = .next (raiseFault .returnOutsideHandler s)) := by
  cases i with
  | rd r =>
    rcases regOfIndex_cases r with ⟨rfl, _⟩ | ⟨reg, rfl⟩
    · exact .inl ⟨rfl, rfl⟩
    · exact .inr (.inl ⟨reg, rfl, exec_rd reg s⟩)
  | wr r v =>
    rcases regOfIndex_cases r with ⟨rfl, _⟩ | ⟨reg, rfl⟩
    · exact .inl ⟨rfl, rfl⟩
    · exact .inr (.inr (.inl ⟨reg, v, rfl, exec_wr reg v s⟩))
  | bset r v =>
    rcases regOfIndex_cases r with ⟨rfl, _⟩ | ⟨reg, rfl⟩
    · exact .inl ⟨rfl, rfl⟩
    · exact .inr (.inr (.inr (.inl ⟨.bset, reg, v, _, .inl ⟨rfl, rfl, rfl⟩, exec_bset reg v s⟩)))
  | bclr r v =>
    rcases regOfIndex_cases r with ⟨rfl, _⟩ | ⟨reg, rfl⟩
    · exact .inl ⟨rfl, rfl⟩
    · exact .inr (.inr (.inr (.inl ⟨.bclr, reg, v, _, .inr (.inl ⟨rfl, rfl, rfl⟩), exec_bclr reg v s⟩)))
  | btgl r v =>
    rcases regOfIndex_cases r with ⟨rfl, _⟩ | ⟨reg, rfl⟩
    · exact .inl ⟨rfl, rfl⟩
    · exact .inr (.inr (.inr (.inl ⟨.btgl, reg, v, _, .inr (.inr ⟨rfl, rfl, rfl⟩), exec_btgl reg v s⟩)))
  | dint => simp [exec, execDint]
  | eint => simp [exec, execEint]
  | wait => cases h : s.isv <;> simp [exec, execWait, h]
  | nop => simp [exec, execNop]
  | jmp addr => simp [exec, execJmp]
  | reti => cases h : s.isv <;> simp [exec, execReti, h]

theorem exec_wait_of_normal {s : State} (h : s.isv = false) :
    exec .wait s = .next (emit (.wait s.stamp) (complete { s with slp := true })) := by
  unfold exec execWait; rw [h]; rfl

theorem exec_wait_of_handler {s : State} (h : s.isv = true) : exec .wait s = .next (raiseFault .waitInsideHandler s) := by
  unfold exec execWait; rw [h]; rfl

theorem exec_reti_of_handler {s : State} (h : s.isv = true) : exec .reti s = .next (leaveHandler s) := by
  unfold exec execReti; rw [h]; rfl

theorem exec_reti_of_normal {s : State} (h : s.isv = false) :
    exec .reti s = .next (raiseFault .returnOutsideHandler s) := by
  unfold exec execReti; rw [h]; rfl

/-- What a write leaves of the pending flag. -/
theorem regWrite_ocf (s : State) (reg : Reg) (v : RegValue) :
    (regWrite s reg v).ocf = if reg = .tifr then s.ocf && v.getLsbD 0 else s.ocf := by
  cases reg <;> rfl

/-- What a read-modify-write leaves of the pending flag. -/
theorem readModifyWrite_ocf (kind : BusKind) (reg : Reg) (new : RegValue) (s : State) :
    (readModifyWrite kind reg new s).ocf = if reg = .tifr then s.ocf && new.getLsbD 0 else s.ocf :=
  regWrite_ocf s reg new

/-- No write sets the pending flag. -/
theorem regWrite_ocf_le (s : State) (reg : Reg) (v : RegValue) : (regWrite s reg v).ocf.toNat ≤ s.ocf.toNat := by
  rw [regWrite_ocf]
  split
  · cases s.ocf <;> cases v.getLsbD 0 <;> decide
  · exact Nat.le_refl _

/-! The bits registers read as -/

theorem getLsbD_bitValue (b : Bool) (k : Nat) : (bitValue b).getLsbD k = (decide (k = 0) && b) := by
  cases b with
  | false => simp [bitValue]
  | true =>
    rcases Nat.lt_or_ge k 16 with h | h
    · revert k; decide
    · rw [BitVec.getLsbD_of_ge _ _ h]; simp; omega

theorem getLsbD_tctlValue (c : Bool) (p : BitVec 3) (k : Nat) :
    ((BitVec.ofBool c ++ p).zeroExtend 16 : RegValue).getLsbD k = if k < 3 then p.getLsbD k else decide (k = 3) && c := by
  simp only [BitVec.truncate_eq_setWidth, BitVec.getLsbD_setWidth, BitVec.getLsbD_append, BitVec.getLsbD_ofBool]
  by_cases h : k < 3
  · simp [h]; omega
  · by_cases h3 : k = 3
    · simp [h3]
    · simp [h, h3]; omega

/-! The sequencer, the agents, the step -/

theorem acceptOk_iff (s : State) : acceptOk s = true ↔
    s.flt = false ∧ s.gie = true ∧ s.eip = false ∧ s.isv = false ∧ s.ocie = true ∧ s.ocf = true := by
  simp [acceptOk, irq, and_assoc]

theorem execOk_iff (s : State) : execOk s = true ↔ s.flt = false ∧ s.slp = false ∧ acceptOk s = false := by
  simp [execOk, and_assoc]

/-- The word the sequencer fetches. -/
theorem romWord_eq (s : State) (a : RomAddr) : romWord s a = some (Memory.byteAt s.params s.rom (4 * a.toNat + 3) ++
    Memory.byteAt s.params s.rom (4 * a.toNat + 2) ++ Memory.byteAt s.params s.rom (4 * a.toNat + 1) ++
    Memory.byteAt s.params s.rom (4 * a.toNat)) := Memory.readWord_eq _ _ _

/-- `EXEC` of a legal word. -/
theorem execStep_of_ok {s : State} {w : Word} {i : Instr} (h : romWord s s.pc = some w) (hd : decodeWord w = .ok i) :
    execStep s = exec i s := by
  unfold execStep
  simp only [h, hd]

/-- `EXEC` of an illegal word. -/
theorem execStep_of_error {s : State} {w : Word} {why : IllegalWord} (h : romWord s s.pc = some w)
    (hd : decodeWord w = .error why) : execStep s = .next (raiseFault (illegalCause why) s) := by
  unfold execStep
  simp only [h, hd]

/-- What `EXEC` can do: the fetched word is illegal and a fault is entered, or its command is executed. -/
theorem execStep_cases (s : State) : ∃ w, romWord s s.pc = some w ∧
    ((∃ why, decodeWord w = .error why ∧ execStep s = .next (raiseFault (illegalCause why) s)) ∨
      ∃ i, decodeWord w = .ok i ∧ execStep s = exec i s) := by
  refine ⟨_, romWord_eq s s.pc, ?_⟩
  unfold execStep
  rw [romWord_eq]
  dsimp only
  generalize decodeWord _ = d
  cases d with
  | error why => exact .inl ⟨why, rfl, rfl⟩
  | ok i => exact .inr ⟨i, rfl, rfl⟩

/-- What the sequencer's turn can do (60_exceptions R195). -/
theorem sequencerStep_cases (s : State) :
    (acceptOk s = true ∧ sequencerStep s = .next (enterHandler s)) ∨
    (acceptOk s = false ∧ execOk s = true ∧ sequencerStep s = execStep s) ∨
    (acceptOk s = false ∧ execOk s = false ∧ sequencerStep s = .next s) := by
  unfold sequencerStep
  cases acceptOk s <;> cases execOk s <;> simp

theorem sequencerStep_of_acceptOk {s : State} (h : acceptOk s = true) : sequencerStep s = .next (enterHandler s) := by
  unfold sequencerStep; rw [h]; rfl

theorem sequencerStep_of_execOk {s : State} (h : execOk s = true) : sequencerStep s = execStep s := by
  unfold sequencerStep; rw [((execOk_iff s).1 h).2.2, h]; rfl

theorem sequencerStep_of_neither {s : State} (ha : acceptOk s = false) (he : execOk s = false) :
    sequencerStep s = .next s := by
  unfold sequencerStep; rw [ha, he]; rfl

/-- Inversion of an agent's step: what each agent can do. -/
theorem agentStep_cases {a : Config.Agent} {s t : State} (h : agentStep a s = .next t) :
    (a = .clock ∧ t = clk s) ∨
    (a = .reset ∧ t = resetStep s) ∨
    (a = .sequencer ∧
      ((acceptOk s = true ∧ t = enterHandler s) ∨
        (acceptOk s = false ∧ execOk s = false ∧ t = s) ∨
        (acceptOk s = false ∧ execOk s = true ∧ ∃ w, romWord s s.pc = some w ∧
          ((∃ why, decodeWord w = .error why ∧ t = raiseFault (illegalCause why) s) ∨
            ∃ i, decodeWord w = .ok i ∧ exec i s = .next t)))) := by
  cases a with
  | clock => exact .inl ⟨rfl, by simpa [agentStep] using h.symm⟩
  | reset => exact .inr (.inl ⟨rfl, by simpa [agentStep] using h.symm⟩)
  | sequencer =>
    simp only [agentStep] at h
    refine .inr (.inr ⟨rfl, ?_⟩)
    rcases sequencerStep_cases s with ⟨ha, hs⟩ | ⟨ha, he, hs⟩ | ⟨ha, he, hs⟩
    · exact .inl ⟨ha, by simpa [hs] using h.symm⟩
    · refine .inr (.inr ⟨ha, he, ?_⟩)
      obtain ⟨w, hw, ⟨why, hd, hx⟩ | ⟨i, hd, hx⟩⟩ := execStep_cases s
      · exact ⟨w, hw, .inl ⟨why, hd, by simpa [hs, hx] using h.symm⟩⟩
      · exact ⟨w, hw, .inr ⟨i, hd, by rw [← hx, ← hs, h]⟩⟩
    · exact .inr (.inl ⟨ha, he, by simpa [hs] using h.symm⟩)

/-- Every command gives a next state. -/
theorem exec_next (i : Instr) (s : State) : ∃ t, exec i s = .next t := by
  rcases exec_cases i s with ⟨_, h⟩ | ⟨_, _, h⟩ | ⟨_, _, _, h⟩ | ⟨_, _, _, _, _, h⟩ | ⟨_, h⟩ | ⟨_, h⟩ | ⟨_, _, h⟩ |
    ⟨_, _, h⟩ | ⟨_, h⟩ | ⟨_, _, h⟩ | ⟨_, _, h⟩ | ⟨_, _, h⟩ <;> exact ⟨_, h⟩

/-- Every agent's step gives a next state. -/
theorem agentStep_next (a : Config.Agent) (s : State) : ∃ t, agentStep a s = .next t := by
  cases a with
  | clock => exact ⟨_, rfl⟩
  | reset => exact ⟨_, rfl⟩
  | sequencer =>
    rcases sequencerStep_cases s with ⟨_, hs⟩ | ⟨_, _, hs⟩ | ⟨_, _, hs⟩
    · exact ⟨_, hs⟩
    · obtain ⟨_, _, ⟨_, _, hx⟩ | ⟨i, _, hx⟩⟩ := execStep_cases s
      · exact ⟨_, hs.trans hx⟩
      · obtain ⟨t, ht⟩ := exec_next i s
        exact ⟨t, hs.trans (hx.trans ht)⟩
    · exact ⟨_, hs⟩

/-- Inversion of the step: whose turn it is and what that agent can do. -/
theorem step_cases {s t : State} (h : step s = .next t) :
    (nextAgent s = .clock ∧ t = clk (takeTurn s)) ∨
    (nextAgent s = .reset ∧ t = resetStep (takeTurn s)) ∨
    (nextAgent s = .sequencer ∧
      ((acceptOk (takeTurn s) = true ∧ t = enterHandler (takeTurn s)) ∨
        (acceptOk (takeTurn s) = false ∧ execOk (takeTurn s) = false ∧ t = takeTurn s) ∨
        (acceptOk (takeTurn s) = false ∧ execOk (takeTurn s) = true ∧ ∃ w, romWord (takeTurn s) (takeTurn s).pc = some w ∧
          ((∃ why, decodeWord w = .error why ∧ t = raiseFault (illegalCause why) (takeTurn s)) ∨
            ∃ i, decodeWord w = .ok i ∧ exec i (takeTurn s) = .next t)))) := agentStep_cases h

@[simp] theorem acceptOk_takeTurn (s : State) : acceptOk (takeTurn s) = acceptOk s := rfl

@[simp] theorem execOk_takeTurn (s : State) : execOk (takeTurn s) = execOk s := rfl

@[simp] theorem romWord_takeTurn (s : State) (a : RomAddr) : romWord (takeTurn s) a = romWord s a := rfl

@[simp] theorem regRead_takeTurn (s : State) (reg : Reg) : regRead (takeTurn s) reg = regRead s reg := by cases reg <;> rfl

/-! Repeated clock steps -/

@[simp] theorem clks_zero (s : State) : clks 0 s = s := rfl

theorem clks_add (m n : Nat) (s : State) : clks (m + n) s = clks n (clks m s) := by
  induction m generalizing s with
  | zero => simp
  | succ m ih => rw [Nat.succ_add]; exact ih (clk s)

theorem clks_succ (n : Nat) (s : State) : clks (n + 1) s = clk (clks n s) := clks_add n 1 s

/-- A clock step without a tick only advances the divider. -/
theorem clk_of_no_tick {s : State} (h : ticksAt s.ps (s.psc + 1) = false) : clk s = { s with psc := s.psc + 1 } := by
  unfold clk; rw [h]; rfl

/-- A clock step with a tick. -/
theorem clk_of_tick {s : State} (h : ticksAt s.ps (s.psc + 1) = true) : clk s = tick { s with psc := s.psc + 1 } := by
  unfold clk; rw [h]; rfl

/-- What a clock step can do: no tick, a tick that counts, a tick that matches. -/
theorem clk_cases (s : State) :
    (ticksAt s.ps (s.psc + 1) = false ∧ clk s = { s with psc := s.psc + 1 }) ∨
    (ticksAt s.ps (s.psc + 1) = true ∧ s.tcnt ≠ s.ocr ∧ clk s = { s with psc := s.psc + 1, tcnt := s.tcnt + 1 }) ∨
    (ticksAt s.ps (s.psc + 1) = true ∧ s.tcnt = s.ocr ∧ clk s = emit (.compareMatch s.stamp)
      { s with psc := s.psc + 1, ocf := true, tcnt := if s.ctc then 0 else s.tcnt + 1 }) := by
  cases ht : ticksAt s.ps (s.psc + 1) with
  | false => exact .inl ⟨rfl, clk_of_no_tick ht⟩
  | true =>
    rw [clk_of_tick ht]
    by_cases h : s.tcnt = s.ocr
    · exact .inr (.inr ⟨rfl, h, by simp [tick, h, State.stamp]⟩)
    · exact .inr (.inl ⟨rfl, h, by simp [tick, h]⟩)

/-- A pending match stays pending over clock steps. -/
theorem clks_ocf {s : State} (n : Nat) (h : s.ocf = true) : (clks n s).ocf = true := by
  induction n with
  | zero => exact h
  | succ n ih =>
    rw [clks_succ]
    rcases clk_cases (clks n s) with ⟨_, hc⟩ | ⟨_, _, hc⟩ | ⟨_, _, hc⟩ <;> rw [hc]
    · exact ih
    · exact ih
    · rfl

/-- The divider over a run of clock steps. -/
theorem clks_psc (n : Nat) (s : State) : (clks n s).psc.toNat = (s.psc.toNat + n) % 1024 := by
  induction n with
  | zero => have := s.psc.isLt; simp; omega
  | succ n ih => rw [clks_succ, clk_psc, BitVec.toNat_add, ih]; simp; omega

/-- The elements a run of clock steps leaves alone, by induction from the lemmas of one step. -/
theorem clks_frame (n : Nat) (s : State) :
    (clks n s).ocr = s.ocr ∧ (clks n s).ps = s.ps ∧ (clks n s).ctc = s.ctc ∧ (clks n s).ocie = s.ocie ∧
    (clks n s).ddr = s.ddr ∧ (clks n s).port = s.port ∧ (clks n s).pc = s.pc ∧ (clks n s).dl = s.dl ∧
    (clks n s).rpc = s.rpc ∧ (clks n s).gie = s.gie ∧ (clks n s).isv = s.isv ∧ (clks n s).eip = s.eip ∧
    (clks n s).slp = s.slp ∧ (clks n s).flt = s.flt ∧ (clks n s).fc = s.fc ∧ (clks n s).fpc = s.fpc ∧
    (clks n s).params = s.params ∧ (clks n s).rom = s.rom ∧ (clks n s).agenda = s.agenda ∧
    (clks n s).draws = s.draws := by
  induction n with
  | zero => simp
  | succ n ih => rw [clks_succ]; simpa using ih

/-- Every prescaler factor divides the divider's 1024 values. -/
theorem divisor_dvd {ps : BitVec 3} {p : Nat} (h : divisor ps = some p) : 0 < p ∧ p ∣ 1024 := by
  unfold divisor at h
  split at h <;> cases h <;> decide

/-- Which of the clock steps after `s` contains a tick. -/
theorem ticksAt_clks {s : State} {p : Nat} (h : divisor s.ps = some p) (n : Nat) :
    ticksAt (clks n s).ps ((clks n s).psc + 1) = decide ((s.psc.toNat + n + 1) % p = 0) := by
  have h1 : ((clks n s).psc + 1).toNat = (s.psc.toNat + n + 1) % 1024 := by
    rw [← clk_psc, ← clks_succ, clks_psc, Nat.add_assoc]
  rw [(clks_frame n s).2.1]
  unfold ticksAt
  rw [h]
  simp only [h1, Nat.mod_mod_of_dvd _ (divisor_dvd h).2]
  rfl

end Sys2Proof.Machine
end

