-- ==== Sys2Proof/Laws/Vocabulary.lean ====
section
/-! SUPPORT. How the terms of Safety.lean are met: frames from equal fields, fault entry, the inversion of a step in those
terms, the reserved bits of the bank. -/

namespace Sys2Proof.Machine

theorem sameRom_of {s t : State} (hp : t.params = s.params) (hr : t.rom = s.rom) : SameRom s t :=
  ⟨hp, hr, fun a => by simp [romByte, hp, hr]⟩

theorem sameControl_of {s t : State} (h : t.gie = s.gie ∧ t.isv = s.isv ∧ t.slp = s.slp ∧ t.rpc = s.rpc ∧
    t.flt = s.flt ∧ t.fc = s.fc ∧ t.fpc = s.fpc ∧ t.psc = s.psc ∧ t.params = s.params ∧ t.rom = s.rom ∧
    t.agenda = s.agenda ∧ t.draws = s.draws) : SameControl s t := by
  obtain ⟨h1, h2, h3, h4, h5, h6, h7, h8, h9, h10, h11, h12⟩ := h
  exact ⟨h1, h2, h3, h4, ⟨h5, h6, h7⟩, h8, sameRom_of h9 h10, h11, h12⟩

theorem pcAdvanced_of {s t : State} (h : t.pc = s.pc + 1) : PcAdvanced s t := by
  unfold PcAdvanced; rw [h]; simp [BitVec.toNat_add]

/-- Entering a fault is fault entry and nothing else. -/
theorem entersFault_raiseFault (c : FaultCause) (s : State) : EntersFault c.code s (raiseFault c s) :=
  ⟨rfl, rfl, rfl, rfl, rfl, rfl, rfl, rfl, rfl, rfl, rfl, fun reg => by simp, rfl, sameRom_of rfl rfl, rfl, rfl⟩

/-- Reserved bits read 0. -/
theorem regRead_and_implemented (s : State) (reg : Reg) : regRead s reg &&& implemented reg = regRead s reg := by
  cases reg with
  | tcnt => exact BitVec.and_allOnes (w := 16)
  | ocr => exact BitVec.and_allOnes (w := 16)
  | tctl =>
    have h : ∀ (c : Bool) (p : BitVec 3), ((BitVec.ofBool c ++ p).zeroExtend 16 : RegValue) &&& 0x000F =
        (BitVec.ofBool c ++ p).zeroExtend 16 := by decide
    exact h _ _
  | timsk => cases h : s.ocie <;> simp [regRead, implemented, bitValue, h]
  | tifr => cases h : s.ocf <;> simp [regRead, implemented, bitValue, h]
  | ddr =>
    have h : ∀ v : BitVec 8, (v.zeroExtend 16 : RegValue) &&& 0x00FF = v.zeroExtend 16 := by decide
    exact h _
  | port =>
    have h : ∀ v : BitVec 8, (v.zeroExtend 16 : RegValue) &&& 0x00FF = v.zeroExtend 16 := by decide
    exact h _

/-- Inversion of a step in the terms claims use. -/
theorem steps_cases {s t : State} (h : Steps s t) :
    (nextAgent s = .clock ∧ t = clk (takeTurn s)) ∨
    (nextAgent s = .reset ∧ t = resetStep (takeTurn s)) ∨
    (Accepts s ∧ t = enterHandler (takeTurn s)) ∨
    (nextAgent s = .sequencer ∧ acceptOk s = false ∧ execOk s = false ∧ t = takeTurn s) ∨
    (nextAgent s = .sequencer ∧ execOk s = true ∧ ∃ w why, romWord s s.pc = some w ∧ decodeWord w = .error why ∧
      t = raiseFault (illegalCause why) (takeTurn s)) ∨
    (∃ i, Executes s i ∧ exec i (takeTurn s) = .next t) := by
  rcases step_cases h with h | h | ⟨hn, ⟨ha, ht⟩ | ⟨ha, he, ht⟩ | ⟨ha, he, w, hw, ⟨why, hd, ht⟩ | ⟨i, hd, ht⟩⟩⟩
  · exact .inl h
  · exact .inr (.inl h)
  · exact .inr (.inr (.inl ⟨⟨hn, ha⟩, ht⟩))
  · exact .inr (.inr (.inr (.inl ⟨hn, ha, he, ht⟩)))
  · exact .inr (.inr (.inr (.inr (.inl ⟨hn, he, w, why, hw, hd, ht⟩))))
  · exact .inr (.inr (.inr (.inr (.inr ⟨i, ⟨hn, he, w, hw, hd⟩, ht⟩))))

/-- A bit command on a register is a command that writes it. -/
theorem writes_of_bitCommand {i : Instr} {reg : Reg} {v : RegValue} {p q r : Prop}
    (h : (i = .bset (regIndex reg) v ∧ p) ∨ (i = .bclr (regIndex reg) v ∧ q) ∨ (i = .btgl (regIndex reg) v ∧ r)) :
    Writes i reg := by
  rcases h with ⟨h, _⟩ | ⟨h, _⟩ | ⟨h, _⟩
  · exact ⟨v, .inr (.inl h)⟩
  · exact ⟨v, .inr (.inr (.inl h))⟩
  · exact ⟨v, .inr (.inr (.inr h))⟩

theorem countEvents_emit (kind : Event → Bool) (e : Event) (s : State) :
    countEvents kind (emit e s) = countEvents kind s + (kind e).toNat := by
  cases h : kind e <;> simp [countEvents, List.countP_append, h]

/-- The events of a kind depend on the trace alone. -/
theorem countEvents_congr (kind : Event → Bool) {s t : State} (h : t.trace = s.trace) :
    countEvents kind t = countEvents kind s := by unfold countEvents; rw [h]

/-- A clock step raises a compare match exactly when it contains a tick that finds the counter at the threshold. -/
theorem matchAt_iff (s : State) (n : Nat) : MatchAt s n ↔
    ticksAt (clks n s).ps ((clks n s).psc + 1) = true ∧ (clks n s).tcnt = s.ocr := by
  unfold MatchAt
  rw [clks_succ]
  rcases clk_cases (clks n s) with ⟨ht, hc⟩ | ⟨ht, hne, hc⟩ | ⟨ht, he, hc⟩ <;> rw [hc, ht]
  · simp [countEvents]
  · rw [(clks_frame n s).1] at hne
    simp [countEvents, hne]
  · rw [(clks_frame n s).1] at he
    rw [countEvents_emit]
    simp [countEvents, isMatch, he]

end Sys2Proof.Machine
end

