-- ==== Sys2Proof/Laws/Runs.lean ====
section
/-! SUPPORT. Runs: what each step of one can do to the timer and to the trace, and that a run whose commands leave the timer
alone is, to the timer, its clock steps. -/

namespace Sys2Proof.Machine

open Sys2Proof.Config (Agent)

/-! Counting clock steps -/

@[simp] theorem clockSteps_self (who : Nat → Agent) (a : Nat) : clockSteps who a a = 0 := by simp [clockSteps]

theorem clockSteps_succ (who : Nat → Agent) {a b : Nat} (h : a ≤ b) :
    clockSteps who a (b + 1) = clockSteps who a b + if who b = .clock then 1 else 0 := by
  unfold clockSteps
  rw [show b + 1 - a = (b - a) + 1 by omega, List.range'_concat, List.countP_append]
  simp [show a + (b - a) = b by omega]

theorem clockSteps_mono (who : Nat → Agent) {a b c : Nat} (hab : a ≤ b) (hbc : b ≤ c) :
    clockSteps who a b ≤ clockSteps who a c := by
  induction c, hbc using Nat.le_induction with
  | base => exact Nat.le_refl _
  | succ c hc ih => rw [clockSteps_succ who (by omega)]; omega

/-! The timer's part of the state -/

/-- Two states whose timer units hold the same. -/
def SameTimer (s t : State) : Prop :=
  t.tcnt = s.tcnt ∧ t.ocr = s.ocr ∧ t.ps = s.ps ∧ t.ctc = s.ctc ∧ t.psc = s.psc

theorem SameTimer.refl (s : State) : SameTimer s s := ⟨rfl, rfl, rfl, rfl, rfl⟩

theorem SameTimer.trans {s t u : State} (h : SameTimer s t) (h' : SameTimer t u) : SameTimer s u := by
  obtain ⟨h1, h2, h3, h4, h5⟩ := h
  obtain ⟨k1, k2, k3, k4, k5⟩ := h'
  exact ⟨k1.trans h1, k2.trans h2, k3.trans h3, k4.trans h4, k5.trans h5⟩

/-- The count after a clock step. -/
theorem clk_tcnt (s : State) : (clk s).tcnt = if ticksAt s.ps (s.psc + 1) = true then
    (if s.tcnt = s.ocr ∧ s.ctc = true then 0 else s.tcnt + 1) else s.tcnt := by
  rcases clk_cases s with ⟨a, c⟩ | ⟨a, b, c⟩ | ⟨a, b, c⟩ <;> rw [c, a]
  · simp
  · simp [b]
  · simp [b]

/-- A clock step of equal timers leaves equal timers. -/
theorem SameTimer.clk {s t : State} (h : SameTimer s t) : SameTimer (clk s) (clk t) := by
  obtain ⟨h1, h2, h3, h4, h5⟩ := h
  exact ⟨by rw [clk_tcnt, clk_tcnt, h1, h2, h3, h4, h5], by simp [h2], by simp [h3], by simp [h4], by simp [h5]⟩

/-- A write of another register leaves the timer alone. -/
theorem sameTimer_regWrite (s : State) {reg : Reg} (v : RegValue) (h : reg ≠ .tcnt ∧ reg ≠ .ocr ∧ reg ≠ .tctl) :
    SameTimer s (regWrite s reg v) := by
  cases reg <;> first
    | exact SameTimer.refl s
    | simp at h

/-- A sequencer's step that fetches no command writing the timer leaves it alone, and raises no match. -/
theorem sameTimer_of_sequencer {s t : State} (h : agentStep .sequencer s = .next t)
    (hw : ∀ i, Fetches s i → ¬Writes i .tcnt ∧ ¬Writes i .ocr ∧ ¬Writes i .tctl) :
    SameTimer s t ∧ countEvents isMatch t = countEvents isMatch s := by
  rcases agentStep_cases h with ⟨h', _⟩ | ⟨h', _⟩ | ⟨_, ⟨_, rfl⟩ | ⟨_, _, rfl⟩ | ⟨_, he, w, hr, ⟨why, hd, rfl⟩ | ⟨i, hd, hx⟩⟩⟩
  · cases h'
  · cases h'
  · exact ⟨SameTimer.refl _, by simp [countEvents, enterHandler, emit, isMatch]⟩
  · exact ⟨SameTimer.refl _, rfl⟩
  · exact ⟨SameTimer.refl _, by simp [countEvents, raiseFault, emit, isMatch]⟩
  · have hnw := hw i ⟨he, w, hr, hd⟩
    rcases exec_cases i s with ⟨_, h'⟩ | ⟨_, _, h'⟩ | ⟨reg, v, hi, h'⟩ | ⟨kind, reg, v, new, hi, h'⟩ | ⟨_, h'⟩ | ⟨_, h'⟩ |
      ⟨_, _, h'⟩ | ⟨_, _, h'⟩ | ⟨_, h'⟩ | ⟨_, _, h'⟩ | ⟨_, _, h'⟩ | ⟨_, _, h'⟩ <;> rw [hx] at h' <;> cases h'
    · exact ⟨SameTimer.refl _, by simp [countEvents, raiseFault, emit, isMatch]⟩
    · exact ⟨SameTimer.refl _, by simp [countEvents, complete, emit, isMatch]⟩
    · refine ⟨sameTimer_regWrite s v ⟨?_, ?_, ?_⟩, by simp [countEvents, emit, isMatch]⟩ <;> rintro rfl
      · exact hnw.1 ⟨v, .inl hi⟩
      · exact hnw.2.1 ⟨v, .inl hi⟩
      · exact hnw.2.2 ⟨v, .inl hi⟩
    · refine ⟨sameTimer_regWrite s new ⟨?_, ?_, ?_⟩, by simp [countEvents, readModifyWrite, emit, isMatch]⟩ <;> rintro rfl
      · exact hnw.1 (writes_of_bitCommand hi)
      · exact hnw.2.1 (writes_of_bitCommand hi)
      · exact hnw.2.2 (writes_of_bitCommand hi)
    all_goals exact ⟨SameTimer.refl _, by simp [countEvents, raiseFault, leaveHandler, complete, emit, isMatch]⟩

/-- Whether the next clock step is a match depends on the timer alone. -/
theorem matchAt_zero_congr {s t : State} (h : SameTimer s t) : MatchAt t 0 ↔ MatchAt s 0 := by
  obtain ⟨h1, h2, h3, _, h5⟩ := h
  simp only [matchAt_iff, clks_zero, h1, h2, h3, h5]

/-- To the timer, a run whose commands leave it alone is its clock steps. -/
theorem sameTimer_of_run {who : Nat → Agent} {r : Nat → State} (hr : IsRun who r) {a b : Nat} (hab : a ≤ b)
    (hu : TimerUndisturbed who r a b) : SameTimer (clks (clockSteps who a b) (r a)) (r b) := by
  induction b, hab using Nat.le_induction with
  | base => simpa using SameTimer.refl (r a)
  | succ b hb ih =>
    have ih := ih fun k h1 h2 => hu k h1 (by omega)
    have hstep := hr b
    unfold AgentSteps at hstep
    rw [clockSteps_succ who hb]
    cases hw : who b with
    | clock =>
      rw [hw] at hstep
      simp only [agentStep, Host.Outcome.next.injEq] at hstep
      rw [if_pos rfl, clks_succ, ← hstep]
      exact ih.clk
    | sequencer =>
      rw [hw] at hstep
      rw [if_neg (by simp)]
      exact ih.trans (sameTimer_of_sequencer hstep ((hu b hb (by omega)).2 hw)).1
    | reset => exact absurd hw (hu b hb (by omega)).1

/-- A step of a run raises a match exactly when it is a clock step that raises one. -/
theorem matchStep_iff {who : Nat → Agent} {r : Nat → State} (hr : IsRun who r) (n : Nat) :
    MatchStep r n ↔ who n = .clock ∧ MatchAt (r n) 0 := by
  have hstep := hr n
  unfold AgentSteps at hstep
  unfold MatchStep
  rcases agentStep_cases hstep with ⟨hw, ht⟩ | ⟨hw, ht⟩ |
    ⟨hw, ⟨_, ht⟩ | ⟨_, _, ht⟩ | ⟨_, he, w, hr, ⟨why, hd, ht⟩ | ⟨i, hd, hx⟩⟩⟩ <;> rw [hw]
  · rw [ht]; simp [MatchAt, clks]
  · rw [ht]; simp [resetStep, applyReset, emit, countEvents, isMatch]
  · rw [ht]; simp [enterHandler, emit, countEvents, isMatch]
  · rw [ht]; simp
  · rw [ht]; simp [raiseFault, emit, countEvents, isMatch]
  · have hc : countEvents isMatch (r (n + 1)) = countEvents isMatch (r n) := by
      rcases exec_cases i (r n) with ⟨_, h'⟩ | ⟨_, _, h'⟩ | ⟨_, _, _, h'⟩ | ⟨_, _, _, _, _, h'⟩ | ⟨_, h'⟩ | ⟨_, h'⟩ |
        ⟨_, _, h'⟩ | ⟨_, _, h'⟩ | ⟨_, h'⟩ | ⟨_, _, h'⟩ | ⟨_, _, h'⟩ | ⟨_, _, h'⟩ <;>
        rw [hx, Host.Outcome.next.injEq] at h' <;> rw [h'] <;>
        simp [countEvents, raiseFault, readModifyWrite, leaveHandler, complete, emit, isMatch]
    rw [hc]; simp

/-- A match of a later step of such a run is a match of the clock steps alone. -/
theorem matchStep_iff_matchAt {who : Nat → Agent} {r : Nat → State} (hr : IsRun who r) {a n : Nat} (han : a ≤ n)
    (hu : TimerUndisturbed who r a n) : MatchStep r n ↔ who n = .clock ∧ MatchAt (r a) (clockSteps who a n) := by
  rw [matchStep_iff hr, matchAt_zero_congr (sameTimer_of_run hr han hu)]
  simp only [matchAt_iff, clks_zero, (clks_frame _ (r a)).1]

/-- The clock steps alone are a run. -/
theorem isRun_clks (s : State) : IsRun (fun _ => .clock) (fun n => clks n s) := fun n => by
  simp [AgentSteps, agentStep, clks_succ]

end Sys2Proof.Machine
end

