-- ==== Sys2Proof/Tests/Slice0.lean ====
section
/-! SUPPORT. Tests: words and vectors of 95_test_vectors.md (their numbers V, A, B, S, F, T are named in the comments) and of
the tables of 30_encoding and 46_canonical_rom, one step each; and for every statement with hypotheses a concrete state that
meets them together. -/

namespace Sys2Proof.Machine.Tests

open Sys2Proof.Config (Agent)

/-! ## Helpers -/

/-- Whether a step gives a next state. -/
def goesOn (s : State) : Bool :=
  match step s with
  | .next _ => true
  | _ => false

/-- The state after a step that gives one. -/
def after (s : State) : State :=
  match step s with
  | .next t => t
  | _ => s

/-- The state after a command that gives one. -/
def did (i : Instr) (s : State) : State :=
  match exec i s with
  | .next t => t
  | _ => s

/-- The state after an agent's step that gives one. -/
def acted (a : Agent) (s : State) : State :=
  match agentStep a s with
  | .next t => t
  | _ => s

theorem steps_after {s : State} (h : goesOn s = true) : Steps s (after s) := by
  unfold goesOn at h
  unfold Steps after
  revert h
  cases step s <;> simp

theorem agentStep_acted (a : Agent) (s : State) : agentStep a s = .next (acted a s) := by
  obtain ⟨t, ht⟩ := agentStep_next a s
  unfold acted
  rw [ht]

/-- A state at address 0x20 with everything else as after reset. -/
def base : State := { State.reset with pc := 0x20 }

/-- The same with an interrupt that is accepted next. -/
def armed : State := { base with gie := true, ocie := true, ocf := true }

/-- The same inside the handler, the return address being 0x0B. -/
def inService : State := { base with isv := true, rpc := 0x0B }

/-- The same asleep. -/
def asleep : State := { base with slp := true }

/-- The same faulted by opcode 0xF. -/
def faulted : State := { base with flt := true, fc := 1, fpc := 0x20 }

/-- The same with a running timer: every edge a tick, reset on match, threshold 1. -/
def running : State := { base with ps := 1, ctc := true, ocr := 1 }

/-- The sequencer's turn with word `w` at `pc`. -/
def run (w : Nat) (s : State) : State := after (s.withFetchWord 32 w)

/-! ## Well-formedness: register 7 is refused in each of the five forms, 0 and 6 are not (30_encoding R84, R85) -/

theorem test_wf_rd : (Instr.rd 7).wf = false ∧ (Instr.rd 6).wf = true := by decide
theorem test_wf_wr : (Instr.wr 7 0).wf = false ∧ (Instr.wr 0 0xFFFF).wf = true := by decide
theorem test_wf_bset : (Instr.bset 7 0).wf = false ∧ (Instr.bset 6 0).wf = true := by decide
theorem test_wf_bclr : (Instr.bclr 7 0).wf = false ∧ (Instr.bclr 4 1).wf = true := by decide
theorem test_wf_btgl : (Instr.btgl 7 0).wf = false ∧ (Instr.btgl 6 0xFFFF).wf = true := by decide
theorem test_wf_others : Instr.dint.wf = true ∧ Instr.eint.wf = true ∧ Instr.wait.wf = true ∧ Instr.nop.wf = true ∧
    (Instr.jmp 0xFF).wf = true ∧ Instr.reti.wf = true := by decide

/-! ## Encodings (L2.1, L2.5) -/

/-- L2.1, formats R and W. -/
theorem test_words_register_access :
    decodeWord 0x10000000 = .ok (.rd 0) ∧ decodeWord 0x16000000 = .ok (.rd 6) ∧
    decodeWord 0x2100F423 = .ok (.wr 1 0xF423) ∧ decodeWord 0x24000000 = .ok (.wr 4 0) ∧
    decodeWord 0x3200000C = .ok (.bset 2 0x000C) ∧ decodeWord 0x33000001 = .ok (.bset 3 1) ∧
    decodeWord 0x44000001 = .ok (.bclr 4 1) ∧ decodeWord 0x45000020 = .ok (.bclr 5 0x0020) ∧
    decodeWord 0x56000020 = .ok (.btgl 6 0x0020) ∧ decodeWord 0x5600FFFF = .ok (.btgl 6 0xFFFF) := by decide

/-- L2.1, formats Z and J. -/
theorem test_words_control :
    decodeWord 0x60000000 = .ok .dint ∧ decodeWord 0x70000000 = .ok .eint ∧ decodeWord 0x80000000 = .ok .wait ∧
    decodeWord 0x90000000 = .ok .nop ∧ decodeWord 0xA000000A = .ok (.jmp 0x0A) ∧
    decodeWord 0xA00000FF = .ok (.jmp 0xFF) ∧ decodeWord 0xB0000000 = .ok .reti := by decide

/-- L2.1, the other direction, pseudo-instructions among them. -/
theorem test_encodings :
    encodeWord (.wr 1 0xF423) = 0x2100F423 ∧ encodeWord (.rd 6) = 0x16000000 ∧ encodeWord (.jmp 0xFF) = 0xA00000FF ∧
    encodeWord .reti = 0xB0000000 ∧ encodeWord Pseudo.ack.expand = 0x44000001 ∧
    encodeWord (Pseudo.outp 5).expand = 0x35000020 ∧ encodeWord (Pseudo.high 5).expand = 0x36000020 ∧
    encodeWord (Pseudo.tgl 5).expand = 0x56000020 ∧ encodeWord Pseudo.irqon.expand = 0x33000001 := by decide

/-- L2.1: the word serialised is the bytes 23 F4 00 21; and three bytes are no command. -/
theorem test_bytes : encode (.wr 1 0xF423) = [0x23, 0xF4, 0x00, 0x21] ∧
    decode [0x23, 0xF4, 0x00, 0x21, 0x99] = .ok (.wr 1 0xF423, [0x99]) ∧
    decode [0x23, 0xF4, 0x00] = .error .truncated := by decide

/-- F1 to F4: opcodes 0x0, 0xC, 0xF. -/
theorem test_illegal_opcode :
    decodeWord 0x00000000 = .error .illegalOpcode ∧ decodeWord 0xFFFFFFFF = .error .illegalOpcode ∧
    decodeWord 0xC0000000 = .error .illegalOpcode ∧ decodeWord 0xF8000000 = .error .illegalOpcode := by decide

/-- F5 to F11: a must-be-zero bit set, which is found before register 7. -/
theorem test_reserved_field :
    decodeWord 0x28000000 = .error .reservedField ∧ decodeWord 0x20010000 = .error .reservedField ∧
    decodeWord 0x2F000000 = .error .reservedField ∧ decodeWord 0x10000001 = .error .reservedField ∧
    decodeWord 0xA0000100 = .error .reservedField ∧ decodeWord 0x90000001 = .error .reservedField ∧
    decodeWord 0xB0000001 = .error .reservedField := by decide

/-- F12 to F14: register 7. -/
theorem test_reserved_register :
    decodeWord 0x27000000 = .error .reservedRegister ∧ decodeWord 0x17000000 = .error .reservedRegister ∧
    decodeWord 0x5700FFFF = .error .reservedRegister := by decide

/-- The host's numbering of a row's bits. -/
theorem test_table_word : decodeTableWord 32 0x2100F423 = some (.wr 1 0xF423) ∧ decodeTableWord 32 0xC0000000 = none := by
  decide

/-! ## Commands (L2.2, L2.3): one step each -/

/-- A1: `RD TCTL` with `CTC = 1`, `PS = 4`. -/
theorem test_rd_tctl : (run 0x12000000 { base with ctc := true, ps := 4 }).dl = 0x000C := by decide

/-- A3: `RD TIFR` reads the flag and leaves it. -/
theorem test_rd_tifr : (run 0x14000000 { base with ocf := true }).dl = 1 ∧
    (run 0x14000000 { base with ocf := true }).ocf = true := by decide

/-- A6: `WR TCTL, #0xFFFF`. -/
theorem test_wr_tctl : (run 0x2200FFFF base).ps = 7 ∧ (run 0x2200FFFF base).ctc = true ∧
    regRead (run 0x2200FFFF base) .tctl = 0x000F ∧ (run 0x2200FFFF base).pc = 0x21 := by decide

/-- A11: `WR TIFR, #0xFFFF` cannot set the flag. -/
theorem test_wr_tifr : (run 0x2400FFFF base).ocf = false := by decide

/-- A13: `BSET TCTL, #0x000C` from 0x0003 is not additive. -/
theorem test_bset_tctl : regRead (run 0x3200000C { base with ps := 3 }) .tctl = 0x000F := by decide

/-- A15: `BSET TIFR, #1` does not set the flag. -/
theorem test_bset_tifr : (run 0x34000001 base).ocf = false := by decide

/-- A18: `BCLR TIFR, #2` misses bit 0. -/
theorem test_bclr_tifr : (run 0x44000002 { base with ocf := true }).ocf = true := by decide

/-- A25: `BCLR DDR, #0x20` leaves pin 5 not driven. -/
theorem test_bclr_ddr : (run 0x45000020 { base with ddr := 0xA0 }).ddr = 0x80 ∧
    pin (run 0x45000020 { base with ddr := 0xA0 }) 5 = .z := by decide

/-- A23: `BTGL PORT, #0xFFFF`. -/
theorem test_btgl_port : (run 0x5600FFFF { base with port := 0xA1 }).port = 0x5E := by decide

/-- A20, A21: `BTGL TIFR, #1` clears the flag and does not set it. -/
theorem test_btgl_tifr : (run 0x54000001 { base with ocf := true }).ocf = false ∧
    (run 0x54000001 base).ocf = false := by decide

/-- B1: `NOP` wraps the pc. -/
theorem test_nop_wraps : (run 0x90000000 { base with pc := 0xFF }).pc = 0x00 := by decide

/-- B2: `JMP 0x0A`. -/
theorem test_jmp : (run 0xA000000A { base with pc := 0x0B }).pc = 0x0A := by decide

/-- B4: `WAIT` outside the handler. -/
theorem test_wait : (run 0x80000000 { base with pc := 0x0A }).slp = true ∧
    (run 0x80000000 { base with pc := 0x0A }).pc = 0x0B := by decide

/-- B5: `WAIT` inside the handler faults with cause 5. -/
theorem test_wait_in_handler : (run 0x80000000 { base with pc := 0x11, isv := true }).fc = 5 ∧
    (run 0x80000000 { base with pc := 0x11, isv := true }).pc = 0x11 ∧
    (run 0x80000000 { base with pc := 0x11, isv := true }).slp = false := by decide

/-- B6: `DINT`. -/
theorem test_dint : (run 0x60000000 { base with gie := true }).gie = false ∧
    (run 0x60000000 { base with gie := true }).pc = 0x21 := by decide

/-- B7: `EINT`. -/
theorem test_eint : (run 0x70000000 base).gie = true ∧ (run 0x70000000 base).eip = true := by decide

/-- B11: `EINT` inside the handler: no acceptance while in service. -/
theorem test_eint_in_handler : (run 0x70000000 { armed with gie := false, isv := true }).gie = true ∧
    acceptOk (run 0x70000000 { armed with gie := false, isv := true }) = false := by decide

/-- B9: `RETI`. -/
theorem test_reti : (run 0xB0000000 inService).pc = 0x0B ∧ (run 0xB0000000 inService).isv = false ∧
    (run 0xB0000000 inService).gie = true := by decide

/-- B10: `RETI` outside the handler faults with cause 4. -/
theorem test_reti_outside : (run 0xB0000000 base).fc = 4 ∧ (run 0xB0000000 base).fpc = 0x20 ∧
    (run 0xB0000000 base).gie = false := by decide

/-- F2, F7, F12: the causes 1, 2 and 3, and the pc stays. -/
theorem test_fault_causes : (run 0xFFFFFFFF base).fc = 1 ∧ (run 0x2F000000 base).fc = 2 ∧ (run 0x27000000 base).fc = 3 ∧
    (run 0x27000000 base).pc = 0x20 := by decide

/-! ## Which step is enabled, and the acceptance (L2.4) -/

/-- S1 to S10, the enabled step written as the pair of `accept_ok` and `exec_ok`. -/
theorem test_enabling :
    (acceptOk armed, execOk armed) = (true, false) ∧
    (acceptOk { armed with slp := true }, execOk { armed with slp := true }) = (true, false) ∧
    (acceptOk { armed with eip := true }, execOk { armed with eip := true }) = (false, true) ∧
    (acceptOk { armed with gie := false }, execOk { armed with gie := false }) = (false, true) ∧
    (acceptOk { armed with isv := true }, execOk { armed with isv := true }) = (false, true) ∧
    (acceptOk { armed with ocie := false }, execOk { armed with ocie := false }) = (false, true) ∧
    (acceptOk { armed with ocf := false }, execOk { armed with ocf := false }) = (false, true) ∧
    (acceptOk { armed with slp := true, ocf := false }, execOk { armed with slp := true, ocf := false }) = (false, false) ∧
    (acceptOk { armed with slp := true, gie := false }, execOk { armed with slp := true, gie := false }) = (false, false) ∧
    (acceptOk { armed with flt := true }, execOk { armed with flt := true }) = (false, false) := by decide

/-- `ACCEPT` from S2 with `pc = 0x0B`. -/
theorem test_accept : let t := acted .sequencer { armed with pc := 0x0B, slp := true }
    (t.rpc, t.pc, t.isv, t.gie, t.slp, t.eip, t.ocf) = (0x0B, 0x10, true, false, false, false, false) := by decide

/-- The same where acceptance does not acknowledge. -/
theorem test_accept_unacknowledged :
    (acted .sequencer { armed with params := { Config.defaults with ackOnEntry := false } }).ocf = true := by decide

/-- An acceptance comes before the fault of a blank word at `pc` (L2.5, priority). -/
theorem test_accept_before_fault : (acted .sequencer armed).pc = 0x10 ∧ (acted .sequencer armed).flt = false := by decide

/-- P3 round 10: `ACCEPT`, then the clock's tick of the same round. -/
theorem test_round : let s := { armed with pc := 0x0A, ps := 1, ctc := true, ocr := 4, tcnt := 2 }
    (match runAgents [.sequencer, .clock] s with
      | .next t => some (t.rpc, t.pc, t.ocf, t.tcnt)
      | _ => none) = some (0x0A, 0x10, false, 3) := by decide

/-! ## The timer (L2.6) -/

/-- T1: ÷8 from divider 5: edge 19 is the match. -/
theorem test_timer_divided : let s := { base with ps := 2, ctc := true, ocr := 2, psc := 5 }
    (clks 18 s).ocf = false ∧ (clks 19 s).ocf = true ∧ (clks 30 s).tcnt = 1 ∧ (clks 30 s).psc = 35 := by decide +kernel

/-- T4: the counter wraps with no event, the match is the fourth tick. -/
theorem test_timer_wraps : let s := { base with ps := 1, ctc := true, ocr := 1, tcnt := 0xFFFE }
    (clks 2 s).tcnt = 0 ∧ (clks 3 s).ocf = false ∧ (clks 4 s).ocf = true ∧ (clks 4 s).tcnt = 0 := by decide

/-- T5: free-running: the match does not clear the counter. -/
theorem test_timer_free_running : let s := { base with ps := 1, ocr := 4, tcnt := 3 }
    (clks 2 s).ocf = true ∧ (clks 2 s).tcnt = 5 ∧ (clks 3 s).tcnt = 6 := by decide

/-- T2, T8: the divider wraps to 0 on the first edge and ticks. -/
theorem test_timer_divider_wraps :
    (clk { base with ps := 4, ctc := true, ocr := 1, psc := 1023 }).tcnt = 1 ∧
    (clk { base with ps := 5, ctc := true, ocr := 0xFFFF, tcnt := 0xFFFF, psc := 1023 }).ocf = true := by decide

/-- T7: stopped, with a threshold that would match. -/
theorem test_timer_stopped : (clks 4 { base with ps := 6, psc := 1020 }).psc = 0 ∧
    (clks 4 { base with ps := 6, psc := 1020 }).ocf = false := by decide

/-- T13: the clock steps while faulted. -/
theorem test_timer_while_faulted : (clk { running with flt := true, fc := 1 }).tcnt = 1 := by decide

/-! ## The ROM, the parameters, the host's view, the assembler -/

/-- 46_canonical_rom R160: the first words of ROM-A with the default parameters. -/
theorem test_rom_a_init : (initWords Config.defaults) =
    [0x20000000, 0x22000000, 0x2100F423, 0x3200000C, 0x44000001, 0x35000020, 0x60000000, 0x33000001, 0x70000000,
     0x36000020, 0x80000000, 0xA000000A] := by decide

/-- R160: what the machine fetches after reset at 0x00, 0x0B, at the vector and where nothing is listed. -/
theorem test_rom_a_fetch : romWord State.reset 0x00 = some 0x20000000 ∧ romWord State.reset 0x0B = some 0xA000000A ∧
    romWord State.reset 0x10 = some 0x56000020 ∧ romWord State.reset 0x11 = some 0xB0000000 ∧
    romWord State.reset 0x12 = some 0xFFFFFFFF := by decide

/-- R166: the handler of ROM-B, and P2's threshold and mode words. -/
theorem test_rom_b : let p := { Config.defaults with threshold := 9, psCode := 1, ackOnEntry := false }
    romB p 0x02 = 0x21000009 ∧ romB p 0x03 = 0x32000009 ∧ romB p 0x11 = 0x44000001 ∧ romB p 0x12 = 0xB0000000 := by decide

/-- 20_memory R63: byte 2 of the word at 0x02 is at byte address 10, the list names nothing that reads as before. -/
theorem test_rom_bytes : romByte State.reset 8 = some 0x23 ∧ romByte State.reset 9 = some 0xF4 ∧
    romByte State.reset 10 = some 0x00 ∧ romByte State.reset 11 = some 0x21 ∧ romByte State.reset 1024 = none ∧
    Memory.putWord Config.defaults [] 0x02 0x2100F423 = [] := by decide

/-- V1: the thresholds for 0.5 Hz and 1 Hz, the refusal of 249999, and the period of 2 seconds. -/
theorem test_threshold : chooseThreshold Config.defaults (1 / 2) = .ok 62499 ∧
    chooseThreshold Config.defaults 1 = .ok 31249 ∧
    chooseThreshold { Config.defaults with psCode := 3 } (1 / 2) = .error .thresholdOutOfRange ∧
    blinkPeriod Config.defaults = some 2 := by decide +kernel

/-- 00_scope R9: the refused configurations. -/
theorem test_parameters : let check (p : Config.Params) := checkParams p (imageA p)
    check Config.defaults = .ok Config.defaults ∧
    check { Config.defaults with threshold := 0 } = .error .thresholdOutOfRange ∧
    check { Config.defaults with threshold := 65536 } = .error .thresholdOutOfRange ∧
    check { Config.defaults with psCode := 6 } = .error .prescalerStopped ∧
    check { Config.defaults with vec := 0x0B } = .error .vectorInsideProgram := by decide

/-- A handler that would run past the end of the ROM (46_canonical_rom R167 excludes it): ROM-A ends at 0xFF with `VEC` 0xFE,
ROM-B does not. -/
theorem test_handler_fits : let p := { Config.defaults with vec := 0xFE }
    checkParams p (imageA p) = .ok p ∧ checkParams p (imageB p) = .error .handlerPastEnd ∧
    checkParams { p with vec := 0xFF } (imageA { p with vec := 0xFF }) = .error .handlerPastEnd := by decide

/-- The refusal is that of the machine, not only of its parameters. -/
theorem test_not_built : let p := { Config.defaults with threshold := 0 }
    State.build p (imageA p) = .error .thresholdOutOfRange := by
  intro p
  have h : checkParams p (imageA p) = .error .thresholdOutOfRange := by decide
  unfold State.build
  rw [h]

/-- An image with a longer initialization: `VEC` is held against that image's code. -/
theorem test_chosen_image : checkParams Config.defaults ⟨fun _ => blankWord, 0x11, 1⟩ = .error .vectorInsideProgram ∧
    checkParams Config.defaults ⟨fun _ => blankWord, 0x10, 1⟩ = .ok Config.defaults := by decide

/-- 20_memory R62, R64: the bank at 0x100. -/
theorem test_host_view : let p := { Config.defaults with regBase := some 0x100 }
    hostRegister p 0x100 2 = some .tcnt ∧ hostRegister p 0x10C 2 = some .port ∧ hostRegister p 0x10E 2 = none ∧
    hostRegister p 0x101 2 = none ∧ hostRegister p 0x100 1 = none ∧ hostRegister Config.defaults 0x100 2 = none := by decide

/-- 20_memory R63: `OCR` = 0xF423 in the embedded bank is 23 at the lower address, F4 at the next. -/
theorem test_host_bytes : let s := { base with ocr := 0xF423, params := { Config.defaults with regBase := some 0x100 } }
    hostBytes s 0x102 2 = some [0x23, 0xF4] ∧ hostBytes s 0x103 2 = none ∧ regOfBytes 0x23 0xF4 = 0xF423 := by decide

/-- 30_encoding R88: a label, a comment, a directive, a binary number, a pseudo-instruction. -/
theorem test_assembler : assemble "idle: WAIT ; sleep\n JMP idle\n.org 0x10\nTGL 5\nWR r2, #0b11".toList =
    .ok [(0x00, .wait), (0x01, .jmp 0x00), (0x10, .btgl 6 0x20), (0x11, .wr 2 3)] := by decide

/-- Log 14: a text starts at 0x00, and a label with no command after it names where the text ends. -/
theorem test_assembler_ends : assemble "JMP end\nend:".toList = .ok [(0x00, .jmp 0x01)] := by decide

/-- R88: `r7`, an immediate of 65536 and an unknown word are refused. -/
theorem test_assembler_refuses : assemble "RD r7".toList = .error .badOperands ∧
    assemble "WR OCR, #65536".toList = .error .badOperands ∧ assemble "CLI".toList = .error .unknownMnemonic := by
  decide

/-- 20_memory R74: the events of `WR OCR, #0xF423` and `BSET TCTL, #0x000C`, as V4 writes them. -/
theorem test_trace :
    (run 0x2100F423 { State.reset with pc := 2 }).trace = [.bus .wr .ocr none (some 0xF423) ⟨2, false, false⟩] ∧
    (run 0x3200000C { State.reset with pc := 3 }).trace =
      [.bus .bset .tctl (some 0x0000) (some 0x000C) ⟨3, false, false⟩] := by decide

/-- 70_reset R230: what a reset fixes, whatever it draws. -/
theorem test_reset : (acted .reset { armed with slp := true, flt := true, fc := 2 }).fc = 0 ∧
    (acted .reset armed).pc = 0 ∧ (acted .reset armed).gie = false ∧ (acted .reset armed).ocie = false :=
  ⟨rfl, rfl, rfl, rfl⟩

/-! ## Witnesses: the hypotheses of each statement, met together -/

/-! Encoding -/

theorem witness_decode_of_encode : (Instr.btgl 6 0xFFFF).wf = true := by decide
theorem witness_encode_of_decode : decodeWord 0x2100F423 = .ok (.wr 1 0xF423) := by decide

/-- The bounds of the three cases of an illegal word. -/
theorem witness_illegal_words :
    (opField 0x00000000).toNat = 0x0 ∧ (opField 0xC0000000).toNat = 0xC ∧
    ((opField 0x18000000).toNat = 1 ∧ ReservedBitSet 0x18000000) ∧
    ((opField 0xB0000001).toNat = 0xB ∧ ReservedBitSet 0xB0000001) ∧
    ((opField 0x17000000).toNat = 1 ∧ ¬ReservedBitSet 0x17000000 ∧ (0x17000000 : Word).extractLsb' 24 3 = 7) ∧
    ((opField 0x57000000).toNat = 5 ∧ ¬ReservedBitSet 0x57000000 ∧ (0x57000000 : Word).extractLsb' 24 3 = 7) := by
  simp only [ReservedBitSet, show (opField 0x18000000).toNat = 1 by decide, show (opField 0xB0000001).toNat = 0xB by decide,
    show (opField 0x17000000).toNat = 1 by decide, show (opField 0x57000000).toNat = 5 by decide]
  decide

/-! The step -/

theorem witness_step_executes : { State.reset with agenda := [.sequencer] }.agenda = .sequencer :: [] ∧
    execOk { State.reset with agenda := [.sequencer] } = true ∧
    romWord { State.reset with agenda := [.sequencer] } 0x00 = some 0x20000000 ∧
    decodeWord 0x20000000 = .ok (.wr 0 0) := by decide

/-! Register access; the hypothesis of all five results is `r ≠ 7` -/

theorem witness_register_operands : (0 : BitVec 3) ≠ 7 ∧ (6 : BitVec 3) ≠ 7 := by decide
theorem witness_reserved_register : (Instr.btgl 7 1) ∈ [Instr.rd 7, .wr 7 1, .bset 7 1, .bclr 7 1, .btgl 7 1] := by decide

/-- The flag is set before and after a `BCLR` that misses it. -/
theorem witness_flag_not_set_by_commands : ∃ t, exec (.bclr 4 2) { base with ocf := true } = .next t ∧ t.ocf = true :=
  ⟨did (.bclr 4 2) { base with ocf := true }, rfl, by decide⟩

/-- A pin that is not driven, one driven low, one driven high. -/
theorem witness_pins : pin base 0 = .z ∧ pin { base with ddr := 1 } 0 = .low ∧
    pin { base with ddr := 0x80, port := 0x80 } 7 = .high := by decide

/-- `WR PORT, #0xFF` changes `PORT`, a reset changes `TIMSK`. -/
theorem witness_bank_written :
    (∃ s t, Steps s t ∧ regRead t .port ≠ regRead s .port) ∧
    ∃ s t, Steps s t ∧ nextAgent s = .reset ∧ regRead t .timsk ≠ regRead s .timsk :=
  ⟨⟨base.withFetchWord 32 0x260000FF, _, steps_after (by decide), by decide⟩,
    { armed with agenda := [.reset] }, _, steps_after rfl, rfl, by decide⟩

theorem witness_host_reaches : hostRegister { Config.defaults with regBase := some 0 } 12 2 = some .port ∧
    (12 : Nat) = 0 + 2 * (regIndex .port).toNat ∧
    hostRegister { base with params := { Config.defaults with regBase := some 0 } }.params 12 2 = some .port := by decide

/-! Sequencing and interrupt control -/

theorem witness_opcode_fields : opField 0x90000000 = 0x9 ∧ opField 0x9FFFFFFF = 0x9 ∧ opField 0xA00000FF = 0xA ∧
    opField 0xA0000100 = 0xA := by decide
theorem witness_wait : base.isv = false := by decide
theorem witness_misplaced : inService.isv = true ∧ base.isv = false := by decide
theorem witness_after_eint : base.flt = false ∧ base.slp = false ∧ exec .eint base = .next (did .eint base) :=
  ⟨rfl, rfl, rfl⟩
theorem witness_reti : inService.isv = true := by decide

/-! Acceptance -/

theorem witness_enabling : acceptOk armed = true ∧ execOk base = true ∧
    (acceptOk faulted = false ∧ execOk faulted = false) ∧ (acceptOk asleep = false ∧ execOk asleep = false) := by decide
theorem witness_acceptance : acceptOk armed = true := by decide
theorem witness_acceptance_asleep : acceptOk { armed with slp := true } = true := by decide
theorem witness_held_match : let s := { inService with ocie := true, ocf := true }
    s.flt = false ∧ s.isv = true ∧ s.ocie = true ∧ s.ocf = true := by decide

/-- The level rises by an acceptance; it falls by a `RETI` and by a reset. -/
theorem witness_level_changes :
    (∃ s t, Steps s t ∧ s.isv = false ∧ t.isv = true) ∧
    (∃ s t, Steps s t ∧ nextAgent s = .sequencer ∧ s.isv = true ∧ t.isv = false) ∧
    ∃ s t, Steps s t ∧ nextAgent s = .reset ∧ s.isv = true ∧ t.isv = false :=
  ⟨⟨{ armed with agenda := [.sequencer] }, _, steps_after (by decide), by decide, by decide⟩,
    ⟨inService.withFetchWord 32 0xB0000000, _, steps_after (by decide), rfl, rfl, by decide⟩,
    { inService with agenda := [.reset] }, _, steps_after rfl, rfl, rfl, rfl⟩

/-- `GIE` falls by a `DINT`, an acceptance and a reset; it rises by an `EINT` and by a `RETI`. -/
theorem witness_global_enable :
    (∃ s t, Steps s t ∧ s.gie = true ∧ t.gie = false ∧ execOk s = true) ∧
    (∃ s t, Steps s t ∧ s.gie = true ∧ t.gie = false ∧ acceptOk s = true) ∧
    (∃ s t, Steps s t ∧ s.gie = true ∧ t.gie = false ∧ nextAgent s = .reset) ∧
    (∃ s t, Steps s t ∧ s.gie = false ∧ t.gie = true ∧ t.eip = true) ∧
    ∃ s t, Steps s t ∧ s.gie = false ∧ t.gie = true ∧ t.eip = false :=
  ⟨⟨{ base with gie := true }.withFetchWord 32 0x60000000, _, steps_after (by decide), rfl, by decide,
      by decide⟩,
    ⟨{ armed with agenda := [.sequencer] }, _, steps_after (by decide), rfl, by decide, by decide⟩,
    ⟨{ armed with agenda := [.reset] }, _, steps_after rfl, rfl, rfl, rfl⟩,
    ⟨base.withFetchWord 32 0x70000000, _, steps_after (by decide), rfl, by decide, by decide⟩,
    inService.withFetchWord 32 0xB0000000, _, steps_after (by decide), rfl, by decide, by decide⟩

/-- `OCF` rises by a compare match; it falls by an acceptance and by a `BCLR`. -/
theorem witness_pending_flag :
    (∃ s t, Steps s t ∧ s.ocf = false ∧ t.ocf = true) ∧
    (∃ s t, Steps s t ∧ s.ocf = true ∧ t.ocf = false ∧ acceptOk s = true) ∧
    ∃ s t, Steps s t ∧ s.ocf = true ∧ t.ocf = false ∧ execOk s = true :=
  ⟨⟨{ running with tcnt := 1, agenda := [.clock] }, _, steps_after (by decide), by decide, by decide⟩,
    ⟨{ armed with agenda := [.sequencer] }, _, steps_after (by decide), rfl, by decide, by decide⟩,
    { base with ocf := true }.withFetchWord 32 0x44000001, _, steps_after (by decide), rfl, by decide,
      by decide⟩

/-- An acceptance whose match came before the counting began, and one counted match. -/
theorem witness_acceptances :
    (∃ s t, s.params.ackOnEntry = true ∧ Steps s t ∧
      countEvents isAccept s + s.ocf.toNat ≤ countEvents isMatch s + countEvents isReset s + 1 ∧
      countEvents isAccept t = 1) ∧
    ∃ s t, s.params.ackOnEntry = true ∧ Steps s t ∧
      countEvents isAccept s + s.ocf.toNat ≤ countEvents isMatch s + countEvents isReset s + 0 ∧ countEvents isMatch t = 1 :=
  ⟨⟨{ armed with agenda := [.sequencer] }, _, rfl, steps_after (by decide), by decide, by decide⟩,
    { running with tcnt := 1, agenda := [.clock] }, _, rfl, steps_after (by decide), by decide, by decide⟩

theorem witness_returns :
    (∃ s t, Steps s t ∧ countEvents isReti s + s.isv.toNat ≤ countEvents isAccept s + 1 ∧ countEvents isReti t = 1) ∧
    ∃ s t, Steps s t ∧ countEvents isReti s + s.isv.toNat ≤ countEvents isAccept s + 0 ∧ countEvents isAccept t = 1 :=
  ⟨⟨inService.withFetchWord 32 0xB0000000, _, steps_after (by decide), by decide, by decide⟩,
    { armed with agenda := [.sequencer] }, _, steps_after (by decide), by decide, by decide⟩

/-! Faults -/

/-- A word of each of the three causes at the `pc` of a machine that may execute it. -/
theorem witness_illegal_word_faults : execOk base = true ∧ base.pc = 0x20 ∧
    romWord (base.withFetchWord 32 0xFFFFFFFF) 0x20 = some 0xFFFFFFFF ∧
    romWord (base.withFetchWord 32 0x18000000) 0x20 = some 0x18000000 ∧
    romWord (base.withFetchWord 32 0x57000000) 0x20 = some 0x57000000 ∧
    execOk (base.withFetchWord 32 0xFFFFFFFF) = true ∧ execOk (base.withFetchWord 32 0x18000000) = true ∧
    execOk (base.withFetchWord 32 0x57000000) = true := by decide

/-- A faulted machine at a turn of the clock and at one of the sequencer. -/
theorem witness_faulted :
    (∃ s t, Steps s t ∧ s.flt = true ∧ nextAgent s = .clock) ∧ ∃ s t, Steps s t ∧ s.flt = true ∧ nextAgent s = .sequencer :=
  ⟨⟨{ faulted with agenda := [.clock] }, _, steps_after (by decide), rfl, rfl⟩,
    { faulted with agenda := [.sequencer] }, _, steps_after (by decide), rfl, rfl⟩

/-! The timer -/

/-- The three cases of a clock step: no tick, a tick that counts, a tick that matches. -/
theorem witness_clock_step :
    ticksAt { base with ps := 5 }.ps ({ base with ps := 5 }.psc + 1) = false ∧
    (ticksAt running.ps (running.psc + 1) = true ∧ running.tcnt ≠ running.ocr) ∧
    (ticksAt running.ps (running.psc + 1) = true ∧ { running with tcnt := 1 }.tcnt = running.ocr) := by decide
theorem witness_stopped : base.ps = 0 ∧ { base with ps := 6 }.ps = 6 ∧ { base with ps := 7 }.ps = 7 := by decide

theorem witness_threshold_zero : let s := { running with ocr := 0 }
    s.ctc = true ∧ divisor s.ps = some 1 ∧ s.ocr = 0 ∧ s.tcnt = 0 := by decide
theorem witness_merged_match : MatchAt { running with tcnt := 1, ocf := true } 0 := by unfold MatchAt; decide

/-! Invariants -/

theorem reset_flags_consistent : FlagsConsistent State.reset :=
  ⟨by decide, by decide, by decide, by decide, by decide, by decide, by decide⟩

/-- The invariant is met, and the step taken, by a machine after reset whose sequencer has the turn. -/
theorem witness_consistent_step : ∃ s t, FlagsConsistent s ∧ Memory.wf s.params s.rom = true ∧ Steps s t :=
  ⟨{ State.reset with agenda := [.sequencer] }, _,
    ⟨by decide, by decide, by decide, by decide, by decide, by decide, by decide⟩, by decide, steps_after (by decide)⟩

/-- The invariant is met by a faulted and by a sleeping machine, and not by one that sleeps in the handler. -/
theorem witness_consistent_states : FlagsConsistent faulted ∧ FlagsConsistent asleep ∧
    ¬FlagsConsistent { inService with slp := true } :=
  ⟨⟨by decide, by decide, by decide, by decide, by decide, by decide, by decide⟩,
    ⟨by decide, by decide, by decide, by decide, by decide, by decide, by decide⟩,
    fun h => absurd (h.sleepsAtNormalLevel rfl).1 (by decide)⟩

theorem witness_agent_steps (a : Agent) : agentStep a base = .next (acted a base) := agentStep_acted a base
theorem witness_sequencer_step : sequencerStep base = .next (acted .sequencer base) := agentStep_acted .sequencer base

/-- Two resets of one run: they draw different numbers. -/
def resetRun : Nat → State
  | 0 => base
  | n + 1 => acted .reset (resetRun n)

theorem witness_resets : IsRun (fun _ => .reset) resetRun ∧ (0 : Nat) < 1 ∧ (resetRun 0).draws = 0 ∧ (resetRun 1).draws = 1 :=
  ⟨fun n => agentStep_acted .reset (resetRun n), by decide, rfl, rfl⟩

theorem witness_reset_keeps_list : Memory.wf armed.params armed.rom = true := by decide

/-! The wait state -/

theorem witness_hang :
    (∃ s t, Steps s t ∧ nextAgent s ≠ .reset ∧ s.slp = true ∧ s.gie = false) ∧
    ∃ s t, Steps s t ∧ nextAgent s ≠ .reset ∧ s.slp = true ∧ s.ocie = false :=
  ⟨⟨{ asleep with agenda := [.sequencer] }, _, steps_after (by decide), by decide, rfl, rfl⟩,
    { asleep with gie := true, agenda := [.clock] }, _, steps_after (by decide), by decide, rfl, rfl⟩

/-- Asleep with the counter stopped and no match pending, the interrupt on. -/
theorem witness_hang_stopped : ∃ s t, Steps s t ∧ nextAgent s ≠ .reset ∧ s.slp = true ∧ s.gie = true ∧ s.ocie = true ∧
    s.ocf = false ∧ s.ps = 7 :=
  ⟨{ asleep with gie := true, ocie := true, ps := 7, agenda := [.clock] }, _, steps_after (by decide), by decide, rfl, rfl,
    rfl, rfl, rfl⟩

/-- Asleep with the interrupt on, the timer running and the LED pin driven. -/
def dozing : State := { running with slp := true, gie := true, ocie := true, ddr := 0x20 }

theorem witness_first_wake : dozing.flt = false ∧ dozing.slp = true ∧ dozing.gie = true ∧ dozing.eip = false ∧
    dozing.isv = false ∧ dozing.ocie = true ∧ dozing.ocf = false ∧ divisor dozing.ps = some 1 := by decide

/-- Clock and sequencer in turn. -/
def inTurn (n : Nat) : Agent := if n % 2 = 0 then .clock else .sequencer

/-- The run from `dozing` in which they step in turn. -/
def fairRun : Nat → State
  | 0 => dozing
  | n + 1 => acted (inTurn n) (fairRun n)

theorem witness_fair_run : IsRun inTurn fairRun ∧ WeaklyFair inTurn fairRun ∧ (∀ k, 0 ≤ k → inTurn k ≠ .reset) ∧
    fairRun 0 = dozing := by
  refine ⟨fun n => agentStep_acted (inTurn n) (fairRun n),
    ⟨fun n => ⟨2 * n, by omega, by simp [inTurn]⟩, fun n _ => ⟨2 * n + 1, by omega, by simp [inTurn]⟩⟩,
    fun k _ => ?_, rfl⟩
  unfold inTurn
  split <;> decide

/-- Four turns of that run: the second clock step is a match, the sequencer's turn after it the acceptance. -/
theorem witness_no_overrun : ∃ new : List Event, (fairRun 0).params.ackOnEntry = true ∧
    (∀ k, k < 4 → inTurn k ≠ .reset) ∧ (∀ k, k < 4 → inTurn k = .sequencer → ∀ i, Fetches (fairRun k) i → ¬Writes i .tifr) ∧
    (fairRun 4).trace = (fairRun 0).trace ++ new ∧ NoOverrun (fairRun 0).ocf new = true ∧ new.countP isMatch = 1 := by
  refine ⟨(fairRun 4).trace, rfl, by decide, fun k hk hs i hf => ?_, rfl, by decide, by decide⟩
  have awake : ∀ k, k < 4 → inTurn k = .sequencer → execOk (fairRun k) = false := by decide
  exact absurd hf.1 (by rw [awake k hk hs]; decide)

/-- A sequencer's step has at most one command to execute. -/
theorem fetches_unique {s : State} {w : Word} {i j : Instr} (hw : romWord s s.pc = some w) (hd : decodeWord w = .ok j)
    (h : Fetches s i) : i = j := by
  obtain ⟨_, w', hw', hd'⟩ := h
  rw [hw] at hw'
  cases hw'
  rw [hd] at hd'
  cases hd'
  rfl

/-- The only command that the first six steps of that run execute: the toggle at `VEC`, in step 5. -/
theorem fairRun_fetches (k : Nat) (hk : k < 7) (hs : inTurn k = .sequencer) (i : Instr) (hf : Fetches (fairRun k) i) :
    i = .btgl 6 0x20 := by
  have hk5 : ∀ k, k < 7 → inTurn k = .sequencer → execOk (fairRun k) = true → k = 5 := by decide
  obtain rfl := hk5 k hk hs hf.1
  exact fetches_unique (w := 0x56000020) (by decide) (by decide) hf

theorem toggle_writes_port_only {reg : Reg} (h : reg ≠ .port) : ¬Writes (.btgl 6 0x20) reg := by
  rintro ⟨imm, h' | h' | h' | h'⟩ <;> cases reg <;> simp [regIndex] at h' h

theorem fairRun_undisturbed : TimerUndisturbed inTurn fairRun 0 6 := fun k _ hk =>
  ⟨witness_fair_run.2.2.1 k (Nat.zero_le k), fun hs i hf => by
    rw [fairRun_fetches k (by omega) hs i hf]
    exact ⟨toggle_writes_port_only (by decide), toggle_writes_port_only (by decide), toggle_writes_port_only (by decide)⟩⟩

/-- Reset-on-match mode: steps 2 and 6 of that run are consecutive matches, the first accepted between them, two clock steps
apart, `(OCR + 1) * P` for `OCR` = 1 and `P` = 1. -/
theorem witness_period : IsRun inTurn fairRun ∧ (fairRun 2).ctc = true ∧ divisor (fairRun 2).ps = some 1 ∧
    MatchStep fairRun 2 ∧ TimerUndisturbed inTurn fairRun 3 6 ∧ inTurn 6 = .clock ∧ MatchStep fairRun 6 ∧
    (∀ j, 2 < j → j < 6 → ¬MatchStep fairRun j) ∧ clockSteps inTurn 3 7 = 2 := by
  refine ⟨witness_fair_run.1, by decide, by decide, ?_, fun k h1 h2 => fairRun_undisturbed k (by omega) h2,
    by decide, ?_, ?_, by decide⟩
  · unfold MatchStep; decide
  · unfold MatchStep; decide
  · have h : ∀ j, j < 6 → 2 < j → ¬countEvents isMatch (fairRun (j + 1)) = countEvents isMatch (fairRun j) + 1 := by
      decide
    exact fun j h1 h2 => h j h2 h1

/-- A run of clock steps alone disturbs nothing. -/
theorem clocks_undisturbed (r : Nat → State) (a b : Nat) : TimerUndisturbed (fun _ => .clock) r a b := fun _ _ _ =>
  ⟨fun h => Agent.noConfusion h, fun h => Agent.noConfusion h⟩

/-- T5: step 1 is a match in free-running mode, step 2 is not the next one. -/
theorem witness_free_running : let r := fun n => clks n { base with ps := 1, ocr := 4, tcnt := 3 }
    IsRun (fun _ => .clock) r ∧ (r 1).ctc = false ∧ divisor (r 1).ps = some 1 ∧ MatchStep r 1 ∧
    TimerUndisturbed (fun _ => .clock) r 2 2 ∧ clockSteps (fun _ => .clock) 2 3 ≤ freeRunSpacing 1 :=
  ⟨isRun_clks _, by decide, by decide, by unfold MatchStep; decide, clocks_undisturbed _ _ _, by decide⟩

/-- The first match of that run (`t0 ≤ N`) is its second clock step; of T4 (`t0 > N`) the fourth. -/
theorem witness_first_match :
    (IsRun inTurn fairRun ∧ divisor (fairRun 0).ps = some 1 ∧ TimerUndisturbed inTurn fairRun 0 2 ∧
      clockSteps inTurn 0 3 = 2 ∧ MatchStep fairRun 2) ∧
    let r := fun n => clks n { running with tcnt := 0xFFFE }
    IsRun (fun _ => .clock) r ∧ divisor (r 0).ps = some 1 ∧ TimerUndisturbed (fun _ => .clock) r 0 3 ∧
      clockSteps (fun _ => .clock) 0 4 = 4 ∧ MatchStep r 3 :=
  ⟨⟨witness_fair_run.1, by decide, fun k h1 h2 => fairRun_undisturbed k h1 (by omega), by decide,
      by unfold MatchStep; decide⟩,
    isRun_clks _, by decide, clocks_undisturbed _ _ _, by decide, by unfold MatchStep; decide⟩

/-- Steps 0 to 5 of that run: one toggle, and the pin goes from low to high. -/
theorem witness_toggles : (∀ k, k ≤ 5 → inTurn k ≠ .reset) ∧
    (∀ k, k ≤ 5 → inTurn k = .sequencer → ∀ i, Fetches (fairRun k) i → ¬Writes i .ddr ∧
      (Writes i .port → ∃ mask, i = .btgl 6 mask ∧ mask.getLsbD (fairRun 0).params.ledBit.val = true)) ∧
    (fairRun 6).trace = (fairRun 0).trace ++ (fairRun 6).trace ∧ (fairRun 6).trace.countP isPortToggle = 1 ∧
    led (fairRun 0) = .low ∧ observed fairRun 5 = .high := by
  refine ⟨fun k _ => witness_fair_run.2.2.1 k (Nat.zero_le k), fun k hk hs i hf => ?_, rfl, by decide, by decide,
    by unfold observed; decide⟩
  rw [fairRun_fetches k (by omega) hs i hf]
  exact ⟨toggle_writes_port_only (by decide), fun _ => ⟨0x20, rfl, by decide⟩⟩

/-- The command at `VEC` is a toggle of the driven LED pin. -/
theorem witness_toggling_handler : romWord (fairRun 0) (fairRun 0).params.vec = some 0x56000020 ∧
    decodeWord 0x56000020 = .ok (.btgl 6 0x20) ∧ (0x20 : BitVec 16).getLsbD (fairRun 0).params.ledBit.val = true ∧
    led (fairRun 0) ≠ .z := by decide

/-! Design-time arithmetic -/

theorem witness_threshold : 0 < Config.defaults.clockHz ∧ (0 : Rat) < 1 / 2 ∧ prescaler Config.defaults = some 256 := by
  decide +kernel

/-- The default machine is built with either image. -/
theorem witness_built : (∃ s, State.build Config.defaults (imageA Config.defaults) = .ok s) ∧
    ∃ s, State.build Config.defaults (imageB Config.defaults) = .ok s := by
  have ha : checkParams Config.defaults (imageA Config.defaults) = .ok Config.defaults := by decide
  have hb : checkParams Config.defaults (imageB Config.defaults) = .ok Config.defaults := by decide
  unfold State.build
  rw [ha, hb]
  exact ⟨⟨_, rfl⟩, _, rfl⟩

end Sys2Proof.Machine.Tests
end

section
/-! PROOFS. What the checks of a build let through, and what stands in the ROM of a machine that was built (00_scope R9,
46_canonical_rom R160, R166). -/

namespace Sys2Proof

/-- A command of format W decodes from its word wherever its register exists (30_encoding R81, R85). -/
theorem decodeWord_formatW {o : Opcode} {r : BitVec 3} (imm : BitVec 16) (ho : o.format = .w) (hr : r ≠ 7) :
    decodeWord (formatW o r imm) = .ok (o.command (formatW o r imm)) := by
  simpa [decodeWord, ho, formatW_mbz] using fun _ => hr

end Sys2Proof

namespace Sys2Proof.Machine

/-! The ROM of a machine -/

/-- A machine given an image as its ROM fetches that image's words (20_memory R61, R63). -/
theorem romWord_boot_ofImage (p : Config.Params) (image : RomAddr → Word) (a : RomAddr) :
    romWord (State.boot p (Memory.ofImage p image)) a = some (image a) := by
  have hbyte : ∀ k, k < 4 →
      Memory.byteAt p (Memory.ofImage p image) (4 * a.toNat + k) = byteOfWord (image a) k := by
    intro k hk
    rw [Memory.byteAt_ofImage p image (Memory.wordAddr_lt a k hk), show (4 * a.toNat + k) / 4 = a.toNat by omega,
      show (4 * a.toNat + k) % 4 = k by omega, BitVec.ofNat_toNat, BitVec.setWidth_eq]
  rw [romWord_eq, boot_params, boot_rom, hbyte 3 (by decide), hbyte 2 (by decide), hbyte 1 (by decide)]
  rw [show 4 * a.toNat = 4 * a.toNat + 0 from rfl, hbyte 0 (by decide), Memory.byteOfWord_append]

theorem imageOf_eq_of_init {init : List Word} (handler : List Word) (vec : RomAddr) {a : RomAddr} {w : Word}
    (h : init[a.toNat]? = some w) : imageOf init handler vec a = w := by
  simp [imageOf, h]

/-- A handler that starts behind the code and fits into the ROM stands whole at its vector. -/
theorem imageOf_eq_of_handler {init handler : List Word} {vec : RomAddr} {k : Nat} {w : Word}
    (hcode : init.length ≤ vec.toNat) (hfit : vec.toNat + handler.length ≤ 256) (h : handler[k]? = some w) :
    imageOf init handler vec (BitVec.ofNat 8 (vec.toNat + k)) = w := by
  obtain ⟨hk, -⟩ := List.getElem?_eq_some_iff.mp h
  have haddr : (BitVec.ofNat 8 (vec.toNat + k)).toNat = vec.toNat + k := by
    rw [BitVec.toNat_ofNat]; omega
  have hinit : init[(BitVec.ofNat 8 (vec.toNat + k)).toNat]? = none := by
    rw [haddr]; exact List.getElem?_eq_none (by omega)
  have hoffset : (BitVec.ofNat 8 (vec.toNat + k) - vec).toNat = k := by
    rw [BitVec.toNat_sub_of_le (by rw [BitVec.le_def]; omega)]; omega
  simp only [imageOf, hinit, hoffset, h, Option.getD_some]

/-! The checks of a build -/

/-- The prescaler runs exactly for the codes 1 to 5 (45_timer R141, R145). -/
theorem prescaler_isNone_iff (p : Config.Params) :
    (prescaler p).isNone ↔ ¬(1 ≤ p.psCode.toNat ∧ p.psCode.toNat ≤ 5) := by
  have hcodes : ∀ ps : BitVec 3, (divisor ps).isNone ↔ ¬(1 ≤ ps.toNat ∧ ps.toNat ≤ 5) := by decide
  exact hcodes p.psCode

theorem thresholdOk_iff (t : Nat) : thresholdOk t ↔ 1 ≤ t ∧ t ≤ 65535 := by
  simp [thresholdOk]

/-- The checks pass exactly for the parameters and images R9 allows, and hand the parameters on unchanged. -/
theorem checkParams_eq_ok_iff (p : Config.Params) (image : Image) (q : Config.Params) :
    checkParams p image = .ok q ↔ q = p ∧ 0 < p.clockHz ∧ (1 ≤ p.psCode.toNat ∧ p.psCode.toNat ≤ 5) ∧
      (1 ≤ p.threshold ∧ p.threshold ≤ 65535) ∧ image.codeLength ≤ p.vec.toNat ∧
      p.vec.toNat + image.handlerLength ≤ 256 := by
  simp only [checkParams, prescaler_isNone_iff, Bool.not_eq_true', ← Bool.not_eq_true, thresholdOk_iff]
  split
  · next hclock => simp [not_lt.mpr hclock]
  next hclock =>
  split
  · next hps => simp [hps]
  next hps =>
  split
  · next ht => simp [ht]
  next ht =>
  split
  · next hvec => simp [not_le.mpr hvec]
  next hvec =>
  split
  · next hfit => simp [not_le.mpr hfit]
  next hfit =>
  exact ⟨fun h => ⟨(Except.ok.inj h).symm, not_le.mp hclock, not_not.mp hps, not_not.mp ht, not_lt.mp hvec,
    not_lt.mp hfit⟩, fun h => congrArg Except.ok h.1.symm⟩

/-- A machine is built exactly when the checks pass; it has the image as its ROM and is as after reset. -/
theorem build_eq_ok_iff (p : Config.Params) (image : Image) (s : State) :
    State.build p image = .ok s ↔
      checkParams p image = .ok p ∧ s = State.boot p (Memory.ofImage p image.word) := by
  unfold State.build
  cases hcheck : checkParams p image with
  | error e => simp
  | ok q =>
    obtain ⟨rfl, -⟩ := (checkParams_eq_ok_iff p image q).mp hcheck
    simp [eq_comm]

/-! The canonical images -/

/-- A canonical image: the code both images share, and one of their handlers at `VEC`. -/
def canonicalImage (p : Config.Params) (handler : List Word) : Image :=
  ⟨imageOf (initWords p) handler p.vec, (initWords p).length, handler.length⟩

theorem canonicalImage_handlerA (p : Config.Params) : canonicalImage p (handlerAWords p) = imageA p := rfl

theorem canonicalImage_handlerB (p : Config.Params) : canonicalImage p (handlerBWords p) = imageB p := rfl

/-- The word at 0x02 is `WR OCR` with the threshold (46_canonical_rom R160). -/
theorem decodeWord_ocrWord (t : BitVec 16) : decodeWord (0x21000000 ||| t.zeroExtend 32) = .ok (.wr 1 t) := by
  have hword : (0x21000000 ||| t.zeroExtend 32 : Word) = formatW .wr 1 t := by
    apply BitVec.eq_of_getLsbD_eq
    intro i hi
    simp only [formatW, BitVec.getLsbD_append, BitVec.getLsbD_or]
    interval_cases i <;> simp [Opcode.bits]
  rw [hword, decodeWord_formatW t rfl (by decide)]
  simp [Opcode.command]

theorem thresholdWord_toNat {p : Config.Params} (h : p.threshold ≤ 65535) :
    (thresholdWord p).toNat = p.threshold := by
  rw [thresholdWord, BitVec.toNat_ofNat]
  omega

/-- A machine built with a canonical image compares against its threshold and has its handler whole at `VEC`. -/
theorem build_canonicalImage {p : Config.Params} {handler : List Word} {s : State}
    (h : State.build p (canonicalImage p handler) = .ok s) :
    0x0C ≤ p.vec.toNat ∧ p.vec.toNat + handler.length ≤ 256 ∧
    (∃ w imm, romWord s 0x02 = some w ∧ decodeWord w = .ok (.wr 1 imm) ∧ imm.toNat = p.threshold) ∧
    ∀ k w, handler[k]? = some w → romWord s (BitVec.ofNat 8 (p.vec.toNat + k)) = some w := by
  obtain ⟨hcheck, rfl⟩ := (build_eq_ok_iff p _ s).mp h
  obtain ⟨-, -, -, ⟨-, ht⟩, hcode, hfit⟩ := (checkParams_eq_ok_iff p _ p).mp hcheck
  refine ⟨hcode, hfit, ⟨_, thresholdWord p, ?_, decodeWord_ocrWord _, thresholdWord_toNat ht⟩, fun k w hk => ?_⟩
  · rw [romWord_boot_ofImage]
    exact congrArg some (imageOf_eq_of_init (init := initWords p) (a := 0x02) handler p.vec rfl)
  · rw [romWord_boot_ofImage]
    exact congrArg some (imageOf_eq_of_handler hcode hfit hk)

/-- Settles O60: a build passes exactly its checks, and the image it was given is what the machine then fetches. -/
theorem onlyValidParametersAreBuilt : Obligations.OnlyValidParametersAreBuilt := by
  unfold Obligations.OnlyValidParametersAreBuilt
  refine ⟨fun p image s => ?_, fun p s => ⟨fun h => ?_, fun h => ?_⟩⟩
  · rw [build_eq_ok_iff, checkParams_eq_ok_iff, and_comm]
    simp only [true_and]
  · obtain ⟨hcode, hfit, hocr, hhandler⟩ := build_canonicalImage (canonicalImage_handlerA p ▸ h)
    exact ⟨hcode, Nat.le_sub_of_add_le (show p.vec.toNat + 2 ≤ 256 from hfit), hocr, hhandler⟩
  · obtain ⟨hcode, hfit, hocr, hhandler⟩ := build_canonicalImage (canonicalImage_handlerB p ▸ h)
    exact ⟨hcode, Nat.le_sub_of_add_le (show p.vec.toNat + 3 ≤ 256 from hfit), hocr, hhandler⟩

end Sys2Proof.Machine
end

section
/-! PROOFS. The state as a whole (10_state): what no step writes, what a command can write, which elements no turn of the
sequencer reads, and what a reset fixes (R41, 70_reset R230). -/

namespace Sys2Proof.Machine

open Sys2Proof.Config (Agent)

/-! What no command can reach -/

/-- The divider, the parameters, the ROM and the number of the next free value are as before: no command writes them. -/
structure SameSurroundings (s t : State) : Prop where
  psc : t.psc = s.psc
  params : t.params = s.params
  rom : t.rom = s.rom
  draws : t.draws = s.draws

theorem sameSurroundings_of_exec {i : Instr} {s t : State} (h : exec i s = .next t) : SameSurroundings s t := by
  rcases exec_cases i s with ⟨_, h'⟩ | ⟨_, _, h'⟩ | ⟨_, _, _, h'⟩ | ⟨_, _, _, _, _, h'⟩ | ⟨_, h'⟩ | ⟨_, h'⟩ | ⟨_, _, h'⟩ |
    ⟨_, _, h'⟩ | ⟨_, h'⟩ | ⟨_, _, h'⟩ | ⟨_, _, h'⟩ | ⟨_, _, h'⟩ <;>
    obtain rfl := Host.Outcome.next.inj (h'.symm.trans h) <;> constructor <;> simp

theorem sameSurroundings_of_sequencer {s t : State} (h : agentStep .sequencer s = .next t) : SameSurroundings s t := by
  rcases agentStep_cases h with ⟨h', _⟩ | ⟨h', _⟩ | ⟨_, ⟨_, rfl⟩ | ⟨_, _, rfl⟩ | ⟨_, _, _, _, ⟨_, _, rfl⟩ | ⟨_, _, hx⟩⟩⟩
  · cases h'
  · cases h'
  · exact ⟨rfl, rfl, rfl, rfl⟩
  · exact ⟨rfl, rfl, rfl, rfl⟩
  · exact ⟨rfl, rfl, rfl, rfl⟩
  · exact sameSurroundings_of_exec hx

/-- No agent writes the ROM or a parameter (10_state R42). -/
theorem sameRom_of_agentStep {a : Agent} {s t : State} (h : agentStep a s = .next t) : SameRom s t := by
  cases a with
  | clock =>
    obtain rfl := Host.Outcome.next.inj h
    exact sameRom_of (clk_params s) (clk_rom s)
  | sequencer =>
    have hs := sameSurroundings_of_sequencer h
    exact sameRom_of hs.params hs.rom
  | reset =>
    obtain rfl := Host.Outcome.next.inj h
    exact sameRom_of rfl rfl

/-- No agent counts the free values back. -/
theorem draws_le_of_agentStep {a : Agent} {s t : State} (h : agentStep a s = .next t) : s.draws ≤ t.draws := by
  cases a with
  | clock =>
    obtain rfl := Host.Outcome.next.inj h
    exact (clk_draws s).ge
  | sequencer => exact (sameSurroundings_of_sequencer h).draws.ge
  | reset =>
    obtain rfl := Host.Outcome.next.inj h
    exact Nat.le_succ s.draws

theorem SameRom.trans {s t u : State} (h : SameRom s t) (h' : SameRom t u) : SameRom s u := by
  obtain ⟨hp, hr, -⟩ := h
  obtain ⟨hp', hr', -⟩ := h'
  exact sameRom_of (hp'.trans hp) (hr'.trans hr)

/-- Settles O52: no agent's step changes them, so by induction no run does. -/
theorem romAndParametersNeverChange : Obligations.RomAndParametersNeverChange := by
  unfold Obligations.RomAndParametersNeverChange
  refine ⟨fun s t h => ?_, fun who r hr n => ?_⟩
  · have hturn : SameRom (takeTurn s) t := sameRom_of_agentStep h
    exact hturn
  · induction n with
    | zero => exact sameRom_of rfl rfl
    | succ n ih => exact ih.trans (sameRom_of_agentStep (hr n))

/-! The latch and the divider, which no turn of the sequencer reads -/

/-- The state with another data latch and another divider. -/
def withHidden (dl : BitVec 16) (psc : BitVec 10) (s : State) : State := { s with dl := dl, psc := psc }

@[simp] theorem regRead_withHidden (dl : BitVec 16) (psc : BitVec 10) (s : State) (reg : Reg) :
    regRead (withHidden dl psc s) reg = regRead s reg := by cases reg <;> rfl

@[simp] theorem regWrite_withHidden (dl : BitVec 16) (psc : BitVec 10) (s : State) (reg : Reg) (v : RegValue) :
    regWrite (withHidden dl psc s) reg v = withHidden dl psc (regWrite s reg v) := by cases reg <;> rfl

@[simp] theorem readModifyWrite_withHidden (dl : BitVec 16) (psc : BitVec 10) (kind : BusKind) (reg : Reg) (new : RegValue)
    (s : State) : readModifyWrite kind reg new (withHidden dl psc s) = withHidden dl psc (readModifyWrite kind reg new s) := by
  simp only [readModifyWrite, regRead_withHidden, regWrite_withHidden]
  rfl

/-- A command does the same whatever the latch and the divider hold; the divider it leaves, and
the latch it leaves or loads from a register. -/
theorem exec_withHidden {i : Instr} {s t : State} (h : exec i s = .next t) (dl : BitVec 16) (psc : BitVec 10) :
    ∃ dl', exec i (withHidden dl psc s) = .next (withHidden dl' psc t) ∧ (dl = s.dl → dl' = t.dl) := by
  rcases exec_cases i s with ⟨hi, h'⟩ | ⟨reg, rfl, h'⟩ | ⟨reg, v, rfl, h'⟩ | ⟨kind, reg, v, new, hi, h'⟩ | ⟨rfl, h'⟩ |
    ⟨rfl, h'⟩ | ⟨rfl, hl, h'⟩ | ⟨rfl, hl, h'⟩ | ⟨rfl, h'⟩ | ⟨addr, rfl, h'⟩ | ⟨rfl, hl, h'⟩ | ⟨rfl, hl, h'⟩ <;>
    obtain rfl := Host.Outcome.next.inj (h'.symm.trans h)
  · exact ⟨dl, exec_of_not_wf hi _, id⟩
  · refine ⟨regRead s reg, ?_, fun _ => rfl⟩
    rw [exec_rd, regRead_withHidden]
    rfl
  · refine ⟨dl, ?_, fun hdl => by simpa using hdl⟩
    rw [exec_wr, regWrite_withHidden]
    rfl
  · refine ⟨dl, ?_, fun hdl => by simpa using hdl⟩
    rcases hi with ⟨rfl, rfl, rfl⟩ | ⟨rfl, rfl, rfl⟩ | ⟨rfl, rfl, rfl⟩ <;> simp
  · exact ⟨dl, rfl, id⟩
  · exact ⟨dl, rfl, id⟩
  · exact ⟨dl, exec_wait_of_handler (s := withHidden dl psc s) hl, id⟩
  · exact ⟨dl, exec_wait_of_normal (s := withHidden dl psc s) hl, id⟩
  · exact ⟨dl, rfl, id⟩
  · exact ⟨dl, rfl, id⟩
  · exact ⟨dl, exec_reti_of_handler (s := withHidden dl psc s) hl, id⟩
  · exact ⟨dl, exec_reti_of_normal (s := withHidden dl psc s) hl, id⟩

/-- A turn of the sequencer likewise: neither element is in what enables its steps, nor in the word it fetches. -/
theorem sequencerStep_withHidden {s t : State} (h : sequencerStep s = .next t) (dl : BitVec 16) (psc : BitVec 10) :
    ∃ dl', sequencerStep (withHidden dl psc s) = .next (withHidden dl' psc t) ∧ (dl = s.dl → dl' = t.dl) := by
  rcases agentStep_cases (a := .sequencer) h with ⟨h', _⟩ | ⟨h', _⟩ | ⟨_, ⟨ha, rfl⟩ | ⟨ha, he, rfl⟩ |
    ⟨_, he, w, hw, hx⟩⟩
  · cases h'
  · cases h'
  · exact ⟨dl, sequencerStep_of_acceptOk (s := withHidden dl psc s) ha, id⟩
  · exact ⟨dl, sequencerStep_of_neither (s := withHidden dl psc _) ha he, id⟩
  · rw [sequencerStep_of_execOk (s := withHidden dl psc s) he]
    obtain ⟨why, hd, rfl⟩ | ⟨i, hd, hx⟩ := hx
    · exact ⟨dl, execStep_of_error (s := withHidden dl psc s) hw hd, id⟩
    · rw [execStep_of_ok (s := withHidden dl psc s) hw hd]
      exact exec_withHidden hx dl psc

/-- A clock step does the same whatever the data latch holds, and leaves it. -/
theorem clk_with_dl (s : State) (v : BitVec 16) : clk { s with dl := v } = { clk s with dl := v } := by
  rcases clk_cases s with ⟨ht, hc⟩ | ⟨ht, hne, hc⟩ | ⟨ht, heq, hc⟩ <;> rw [hc]
  · exact clk_of_no_tick ht
  · rw [clk_of_tick (s := { s with dl := v }) ht]
    simp [tick, hne]
  · rw [clk_of_tick (s := { s with dl := v }) ht]
    simp [tick, heq, emit, State.stamp]

/-- Settles O53: the sequencer leaves it or loads it from a register, the clock leaves it, a reset draws it. -/
theorem dataLatchIsReadByNothing : Obligations.DataLatchIsReadByNothing := by
  unfold Obligations.DataLatchIsReadByNothing
  intro a s t v h
  cases a with
  | clock =>
    obtain rfl := Host.Outcome.next.inj h
    exact ⟨v, congrArg Host.Outcome.next (clk_with_dl s v)⟩
  | sequencer =>
    obtain ⟨dl', hstep, -⟩ := sequencerStep_withHidden h v s.psc
    have hpsc := (sameSurroundings_of_sequencer h).psc
    exact ⟨dl', hstep.trans (by rw [← hpsc]; rfl)⟩
  | reset =>
    obtain rfl := Host.Outcome.next.inj h
    exact ⟨(resetStep s).dl, rfl⟩

/-- Settles O54: no command writes the divider, and a turn of the sequencer does the same whatever it holds. -/
theorem dividerIsHiddenFromCommands : Obligations.DividerIsHiddenFromCommands := by
  unfold Obligations.DividerIsHiddenFromCommands
  intro s t v h
  obtain ⟨dl', hstep, hdl⟩ := sequencerStep_withHidden h s.dl v
  obtain rfl := hdl rfl
  exact ⟨(sameSurroundings_of_sequencer h).psc, hstep⟩

/-! The pins -/

/-- The level of a pin with this `DDR` bit and this `PORT` bit (10_state R38). -/
def pinOfBits (driven level : Bool) : Pin := if driven then (if level then .high else .low) else .z

theorem pin_eq_pinOfBits (s : State) (i : Fin 8) : pin s i = pinOfBits (s.ddr.getLsbD i) (s.port.getLsbD i) := rfl

theorem pinOfBits_iff : ∀ d p : Bool, (pinOfBits d p = .z ↔ d = false) ∧ (pinOfBits d p = .high ↔ d = true ∧ p = true) ∧
    (pinOfBits d p = .low ↔ d = true ∧ p = false) := by decide

/-- `BTGL` of `PORT` leaves the direction of a pin and inverts its `PORT` bit where the mask has a 1 (40_register_access R104). -/
theorem pin_btgl_port (s : State) (mask : BitVec 16) (i : Fin 8) :
    pin (readModifyWrite .btgl .port (regRead s .port ^^^ mask) s) i =
      pinOfBits (s.ddr.getLsbD i) (s.port.getLsbD i ^^ mask.getLsbD i) := by
  have hport : (readModifyWrite .btgl .port (regRead s .port ^^^ mask) s).port.getLsbD i =
      (s.port.getLsbD i ^^ mask.getLsbD i) := by
    have hi : i.val < 16 := by omega
    simp [readModifyWrite, regWrite, regRead, hi]
  rw [pin_eq_pinOfBits, hport]
  rfl

/-- Settles O19: a pin is a function of its two bits, of which `BTGL` of `PORT` inverts one. -/
theorem pinsFollowPortAndDirection : Obligations.PinsFollowPortAndDirection := by
  unfold Obligations.PinsFollowPortAndDirection
  intro s i
  obtain ⟨hz, hhigh, hlow⟩ := pinOfBits_iff (s.ddr.getLsbD i) (s.port.getLsbD i)
  refine ⟨hz, hhigh, hlow, fun mask => ⟨_, exec_btgl .port mask s, ?_⟩⟩
  rw [pin_btgl_port, pin_eq_pinOfBits]
  cases s.ddr.getLsbD i <;> cases s.port.getLsbD i <;> cases mask.getLsbD i <;> rfl

/-! The writers of the bank and of `GIE` -/

/-- A command changes a register of the bank only if it is one of the four that write it (10_state R22 to R27). -/
theorem regRead_exec_of_not_writes {i : Instr} {s t : State} {reg : Reg} (h : exec i s = .next t) (hw : ¬Writes i reg) :
    regRead t reg = regRead s reg := by
  rcases exec_cases i s with ⟨_, h'⟩ | ⟨_, _, h'⟩ | ⟨reg', v, hi, h'⟩ | ⟨_, reg', _, new, hi, h'⟩ | ⟨_, h'⟩ | ⟨_, h'⟩ |
    ⟨_, _, h'⟩ | ⟨_, _, h'⟩ | ⟨_, h'⟩ | ⟨_, _, h'⟩ | ⟨_, _, h'⟩ | ⟨_, _, h'⟩ <;>
    obtain rfl := Host.Outcome.next.inj (h'.symm.trans h)
  · exact regRead_raiseFault _ s reg
  · cases reg <;> rfl
  · have hne : reg ≠ reg' := fun he => hw (he ▸ ⟨v, .inl hi⟩)
    simpa using regRead_regWrite_of_ne s v hne
  · have hne : reg ≠ reg' := fun he => hw (he ▸ writes_of_bitCommand hi)
    simpa using regRead_regWrite_of_ne s new hne
  all_goals cases reg <;> rfl

/-- The clock writes the counter and the pending flag alone. -/
theorem regRead_clk {reg : Reg} (s : State) (hcount : reg ≠ .tcnt) (hflag : reg ≠ .tifr) :
    regRead (clk s) reg = regRead s reg := by
  cases reg with
  | tcnt => exact absurd rfl hcount
  | tifr => exact absurd rfl hflag
  | ocr | tctl | timsk | ddr | port => simp [regRead]

/-- An acceptance writes the pending flag alone. -/
theorem regRead_enterHandler {reg : Reg} (s : State) (hflag : reg ≠ .tifr) :
    regRead (enterHandler s) reg = regRead s reg := by
  cases reg with
  | tifr => exact absurd rfl hflag
  | tcnt | ocr | tctl | timsk | ddr | port => rfl

/-- Settles O20: every other kind of step reads back the register as it was. -/
theorem bankIsWrittenByItsCommandsOnly : Obligations.BankIsWrittenByItsCommandsOnly := by
  unfold Obligations.BankIsWrittenByItsCommandsOnly
  intro s t reg h hcount hflag hne
  rcases steps_cases h with ⟨_, rfl⟩ | ⟨hn, _⟩ | ⟨_, rfl⟩ | ⟨_, _, _, rfl⟩ | ⟨_, _, _, _, _, _, rfl⟩ | ⟨i, hi, hx⟩
  · exact absurd ((regRead_clk _ hcount hflag).trans (regRead_takeTurn s reg)) hne
  · exact .inl hn
  · exact absurd ((regRead_enterHandler _ hflag).trans (regRead_takeTurn s reg)) hne
  · exact absurd (regRead_takeTurn s reg) hne
  · exact absurd ((regRead_raiseFault _ _ reg).trans (regRead_takeTurn s reg)) hne
  · refine .inr ⟨i, hi, not_not.mp fun hw => hne ?_⟩
    rw [regRead_exec_of_not_writes hx hw, regRead_takeTurn]

/-- The commands that write `GIE`, and what each writes (10_state R32). -/
theorem gie_of_exec {i : Instr} {s t : State} (h : exec i s = .next t) :
    t.gie = s.gie ∨ (i = .dint ∧ t.gie = false) ∨ (i = .eint ∧ t.gie = true) ∨ (i = .reti ∧ t.gie = true) := by
  rcases exec_cases i s with ⟨_, h'⟩ | ⟨_, _, h'⟩ | ⟨_, _, _, h'⟩ | ⟨_, _, _, _, _, h'⟩ | ⟨hi, h'⟩ | ⟨hi, h'⟩ | ⟨_, _, h'⟩ |
    ⟨_, _, h'⟩ | ⟨_, h'⟩ | ⟨_, _, h'⟩ | ⟨hi, _, h'⟩ | ⟨_, _, h'⟩ <;>
    obtain rfl := Host.Outcome.next.inj (h'.symm.trans h)
  · exact .inl rfl
  · exact .inl rfl
  · exact .inl (regWrite_gie s _ _)
  · exact .inl (readModifyWrite_gie _ _ _ s)
  · exact .inr (.inl ⟨hi, rfl⟩)
  · exact .inr (.inr (.inl ⟨hi, rfl⟩))
  · exact .inl rfl
  · exact .inl rfl
  · exact .inl rfl
  · exact .inl rfl
  · exact .inr (.inr (.inr ⟨hi, rfl⟩))
  · exact .inl rfl

/-- Settles O35: the step is a reset, an acceptance or one of three commands, or it leaves `GIE`. -/
theorem globalEnableWriters : Obligations.GlobalEnableWriters := by
  unfold Obligations.GlobalEnableWriters
  intro s t h hne
  rcases steps_cases h with ⟨_, rfl⟩ | ⟨hn, rfl⟩ | ⟨ha, rfl⟩ | ⟨_, _, _, rfl⟩ | ⟨_, _, _, _, _, _, rfl⟩ | ⟨i, hi, hx⟩
  · exact absurd (clk_gie (takeTurn s)) hne
  · exact .inl ⟨rfl, .inl hn⟩
  · exact .inl ⟨rfl, .inr (.inl ha)⟩
  · exact absurd rfl hne
  · exact absurd rfl hne
  · rcases gie_of_exec hx with hg | ⟨rfl, hg⟩ | ⟨rfl, hg⟩ | ⟨rfl, hg⟩
    · exact absurd hg hne
    · exact .inl ⟨hg, .inr (.inr hi)⟩
    · exact .inr ⟨hg, .inl hi⟩
    · exact .inr ⟨hg, .inr hi⟩

/-! Reset -/

/-- A state with no fault recorded, awake and with no delay meets the invariant of the flags. -/
theorem flagsConsistent_of_cleared {s : State} (hflt : s.flt = false) (hfc : s.fc = 0) (hslp : s.slp = false)
    (heip : s.eip = false) : FlagsConsistent s where
  noCauseUnlessFaulted _ := hfc
  causeWhenFaulted h := by simp [hflt] at h
  faultAtPc h := by simp [hflt] at h
  delayOnlyEnabled h := by simp [heip] at h
  sleepsAtNormalLevel h := by simp [hslp] at h
  returnFaultLevel h := by simp [hflt] at h
  waitFaultLevel h := by simp [hflt] at h

/-- Settles O50: a reset clears the flags the invariant speaks of and keeps the ROM list; the empty list is canonical. -/
theorem resetMeetsFlagsConsistent : Obligations.ResetMeetsFlagsConsistent := by
  unfold Obligations.ResetMeetsFlagsConsistent
  exact ⟨flagsConsistent_of_cleared rfl rfl rfl rfl, rfl,
    fun s => ⟨flagsConsistent_of_cleared rfl rfl rfl rfl, id⟩⟩

/-- With interrupts disabled, a sequencer neither faulted nor asleep executes, after any number of clock steps. -/
theorem sequencerStep_clks_of_gie_off {s : State} (hflt : s.flt = false) (hslp : s.slp = false) (hgie : s.gie = false)
    (n : Nat) : sequencerStep (clks n s) = execStep (clks n s) := by
  obtain ⟨-, -, -, -, -, -, -, -, -, hg, -, -, hs, hf, -⟩ := clks_frame n s
  exact sequencerStep_of_execOk (by simp [execOk, acceptOk, hg, hs, hf, hflt, hslp, hgie])

/-- A reset uses up its draw, and no later step of a run gives it back. -/
theorem draws_lt_of_reset {who : Nat → Agent} {r : Nat → State} {k m : Nat} (hr : IsRun who r) (hkm : k < m)
    (hk : who k = .reset) : (r k).draws < (r m).draws := by
  have hreset : r (k + 1) = resetStep (r k) := by
    have hstep := hr k
    rw [hk] at hstep
    exact (Host.Outcome.next.inj hstep).symm
  have hmono : Monotone fun n => (r n).draws := monotone_nat_of_le_succ fun n => draws_le_of_agentStep (hr n)
  calc (r k).draws < (r (k + 1)).draws := by rw [hreset]; exact Nat.lt_succ_self _
    _ ≤ (r m).draws := hmono hkm

/-- Settles O51: field by field of `resetStep`, then the first turn after it, then the draws of a run. -/
theorem resetLeavesTheFixedValues : Obligations.ResetLeavesTheFixedValues := by
  unfold Obligations.ResetLeavesTheFixedValues
  refine ⟨fun s => ⟨resetStep s, rfl, ?_⟩, fun who r k m hr hkm hk => draws_lt_of_reset hr hkm hk, ?_⟩
  · have hfirst : ∀ n, sequencerStep (clks n (resetStep s)) = execStep (clks n (resetStep s)) ∧
        (clks n (resetStep s)).pc = 0 := fun n => by
      obtain ⟨-, -, -, -, -, -, hpc, -⟩ := clks_frame n (resetStep s)
      exact ⟨sequencerStep_clks_of_gie_off rfl rfl rfl n, hpc⟩
    simpa [State.stamp] using ⟨sameRom_of (t := resetStep s) (s := s) rfl rfl, hfirst⟩
  · decide

end Sys2Proof.Machine
end

section
/-! PROOFS. Memory (20_memory): the ROM as an image gives it (R61, R63), the access functions of the bank (R73), the bank as a
host sees it (R62 to R64), and the trace, which every step appends to and none reads (R74). -/

namespace Sys2Proof.Machine

/-! The trace -/

/-- The state with another trace. -/
def withTrace (tr : List Event) (s : State) : State := { s with trace := tr }

@[simp] theorem regRead_withTrace (tr : List Event) (s : State) (reg : Reg) :
    regRead (withTrace tr s) reg = regRead s reg := by cases reg <;> rfl

@[simp] theorem regWrite_withTrace (tr : List Event) (s : State) (reg : Reg) (v : RegValue) :
    regWrite (withTrace tr s) reg v = withTrace tr (regWrite s reg v) := by cases reg <;> rfl

theorem readModifyWrite_withTrace (tr : List Event) (kind : BusKind) (reg : Reg) (new : RegValue) (s : State) :
    readModifyWrite kind reg new (withTrace tr s) =
      emit (.bus kind reg (some (regRead s reg)) (some new) s.stamp) (withTrace tr (complete (regWrite s reg new))) := by
  rw [readModifyWrite, regRead_withTrace, regWrite_withTrace]
  rfl

/-- The operation `f` takes `s` to `t` by way of the trace only as an output: it appends at most one event, the same one
whatever trace it finds, and everything else it leaves is the same whatever trace it finds. -/
def OnlyAppends (f : State → Host.Outcome State Fault Refusal) (s t : State) : Prop :=
  ∃ new : List Event, new.length ≤ 1 ∧ t.trace = s.trace ++ new ∧
    ∀ tr, f (withTrace tr s) = .next (withTrace (tr ++ new) t)

theorem onlyAppends_of_silent {f : State → Host.Outcome State Fault Refusal} {s t : State} (ht : t.trace = s.trace)
    (hf : ∀ tr, f (withTrace tr s) = .next (withTrace tr t)) : OnlyAppends f s t :=
  ⟨[], Nat.zero_le 1, by simpa using ht, fun tr => by simpa using hf tr⟩

theorem onlyAppends_of_emit {f : State → Host.Outcome State Fault Refusal} {s u : State} (e : Event)
    (hu : u.trace = s.trace) (hf : ∀ tr, f (withTrace tr s) = .next (emit e (withTrace tr u))) :
    OnlyAppends f s (emit e u) :=
  ⟨[e], Nat.le_refl 1, congrArg (· ++ [e]) hu, hf⟩

/-- An operation that does as `f` does on `s` and on every other trace appends as `f` does. -/
theorem OnlyAppends.congr {f g : State → Host.Outcome State Fault Refusal} {s t : State} (h : OnlyAppends f s t)
    (hg : ∀ tr, g (withTrace tr s) = f (withTrace tr s)) : OnlyAppends g s t := by
  obtain ⟨new, hlen, htrace, hf⟩ := h
  exact ⟨new, hlen, htrace, fun tr => (hg tr).trans (hf tr)⟩

/-- Every command appends at most its own event, or that of the fault it enters. -/
theorem onlyAppends_exec {i : Instr} {s t : State} (h : exec i s = .next t) : OnlyAppends (exec i) s t := by
  rcases exec_cases i s with ⟨hi, h'⟩ | ⟨reg, rfl, h'⟩ | ⟨reg, v, rfl, h'⟩ | ⟨kind, reg, v, new, hi, h'⟩ | ⟨rfl, h'⟩ |
    ⟨rfl, h'⟩ | ⟨rfl, hl, h'⟩ | ⟨rfl, hl, h'⟩ | ⟨rfl, h'⟩ | ⟨addr, rfl, h'⟩ | ⟨rfl, hl, h'⟩ | ⟨rfl, hl, h'⟩ <;>
    obtain rfl := Host.Outcome.next.inj (h'.symm.trans h)
  · exact onlyAppends_of_emit _ rfl fun tr => exec_of_not_wf hi _
  · refine onlyAppends_of_emit _ rfl fun tr => ?_
    rw [exec_rd, regRead_withTrace]
    rfl
  · refine onlyAppends_of_emit _ (by simp) fun tr => ?_
    rw [exec_wr, regWrite_withTrace]
    rfl
  · refine onlyAppends_of_emit _ (by simp) fun tr => ?_
    rcases hi with ⟨rfl, rfl, rfl⟩ | ⟨rfl, rfl, rfl⟩ | ⟨rfl, rfl, rfl⟩ <;> simp [readModifyWrite_withTrace]
  · exact onlyAppends_of_emit _ rfl fun tr => rfl
  · exact onlyAppends_of_emit _ rfl fun tr => rfl
  · exact onlyAppends_of_emit _ rfl fun tr => exec_wait_of_handler (s := withTrace tr s) hl
  · exact onlyAppends_of_emit _ rfl fun tr => exec_wait_of_normal (s := withTrace tr s) hl
  · exact onlyAppends_of_silent rfl fun tr => rfl
  · exact onlyAppends_of_silent rfl fun tr => rfl
  · exact onlyAppends_of_emit _ rfl fun tr => exec_reti_of_handler (s := withTrace tr s) hl
  · exact onlyAppends_of_emit _ rfl fun tr => exec_reti_of_normal (s := withTrace tr s) hl

/-- A turn of the sequencer likewise: the trace is in nothing that enables its steps, nor in the word it fetches. -/
theorem onlyAppends_sequencerStep {s t : State} (h : sequencerStep s = .next t) : OnlyAppends sequencerStep s t := by
  rcases agentStep_cases (a := .sequencer) h with ⟨h', _⟩ | ⟨h', _⟩ | ⟨_, ⟨ha, rfl⟩ | ⟨ha, he, rfl⟩ |
    ⟨_, he, w, hw, ⟨why, hd, rfl⟩ | ⟨i, hd, hx⟩⟩⟩
  · cases h'
  · cases h'
  · exact onlyAppends_of_emit _ rfl fun tr => sequencerStep_of_acceptOk (s := withTrace tr s) ha
  · exact onlyAppends_of_silent rfl fun tr => sequencerStep_of_neither (s := withTrace tr t) ha he
  · exact onlyAppends_of_emit _ rfl fun tr => (sequencerStep_of_execOk (s := withTrace tr s) he).trans
      (execStep_of_error (s := withTrace tr s) hw hd)
  · exact (onlyAppends_exec hx).congr fun tr => (sequencerStep_of_execOk (s := withTrace tr s) he).trans
      (execStep_of_ok (s := withTrace tr s) hw hd)

/-- The clock appends the event of a match, if there is one. -/
theorem onlyAppends_clk (s : State) : OnlyAppends (agentStep .clock) s (clk s) := by
  rcases clk_cases s with ⟨ht, hc⟩ | ⟨ht, hne, hc⟩ | ⟨ht, heq, hc⟩ <;> rw [hc]
  · exact onlyAppends_of_silent rfl fun tr => congrArg Host.Outcome.next (clk_of_no_tick (s := withTrace tr s) ht)
  · refine onlyAppends_of_silent rfl fun tr => congrArg Host.Outcome.next ?_
    rw [clk_of_tick (s := withTrace tr s) ht]
    exact if_neg hne
  · refine onlyAppends_of_emit _ rfl fun tr => congrArg Host.Outcome.next ?_
    rw [clk_of_tick (s := withTrace tr s) ht]
    exact if_pos heq

/-- Settles O55: agent by agent, each step is an output to the trace and reads nothing of it. -/
theorem traceIsOnlyObserved : Obligations.TraceIsOnlyObserved := by
  unfold Obligations.TraceIsOnlyObserved
  intro a s t h
  have happends : OnlyAppends (agentStep a) s t := by
    cases a with
    | clock =>
      obtain rfl := Host.Outcome.next.inj h
      exact onlyAppends_clk s
    | sequencer => exact onlyAppends_sequencerStep h
    | reset =>
      obtain rfl := Host.Outcome.next.inj h
      exact onlyAppends_of_emit _ rfl fun tr => rfl
  exact happends

/-! The ROM -/

/-- Settles O9: the cells of an image are canonical, and the machine given them fetches its words. -/
theorem everyImageIsReadBack : Obligations.EveryImageIsReadBack := by
  unfold Obligations.EveryImageIsReadBack
  exact fun p image => ⟨Memory.wf_ofImage p image, romWord_boot_ofImage p image⟩

/-! The bank as a host sees it -/

theorem regOfIndex_eq_some_iff (r : BitVec 3) (reg : Reg) : regOfIndex r = some reg ↔ r = regIndex reg := by
  constructor
  · intro h
    rcases regOfIndex_cases r with ⟨-, hnone⟩ | ⟨reg', rfl⟩
    · rw [hnone] at h; cases h
    · rw [regOfIndex_regIndex] at h
      rw [Option.some.inj h]
  · rintro rfl
    exact regOfIndex_regIndex reg

/-- An access reaches a register exactly when it is a 16-bit access at the address of that register (20_memory R62, R64). -/
theorem hostRegister_eq_some_iff (p : Config.Params) (a width : Nat) (reg : Reg) :
    hostRegister p a width = some reg ↔ width = 2 ∧ hostAddress p reg = some a := by
  have hindex := (regIndex reg).isLt
  unfold hostRegister hostAddress
  cases p.regBase with
  | none => simp
  | some base =>
    simp only [Option.map_some, Option.some.injEq, Option.ite_none_right_eq_some, regOfIndex_eq_some_iff,
      ← BitVec.toNat_inj, BitVec.toNat_ofNat]
    omega

/-- The two bytes of a register value make the value again (20_memory R63). -/
theorem regOfBytes_bytesOfReg (v : RegValue) : regOfBytes (v.extractLsb' 0 8) (v.extractLsb' 8 8) = v := by
  apply BitVec.eq_of_getLsbD_eq
  intro k hk
  simp only [regOfBytes, BitVec.getLsbD_append, BitVec.getLsbD_extractLsb']
  by_cases hlow : k < 8
  · simp [hlow]
  · simp [hlow, show k - 8 < 8 by omega, show 8 + (k - 8) = k by omega]

/-- Settles O21: the accesses that reach a register are those at its host address, and they see its two bytes. -/
theorem hostReachesTheBankAtItsAddressesOnly : Obligations.HostReachesTheBankAtItsAddressesOnly := by
  unfold Obligations.HostReachesTheBankAtItsAddressesOnly
  refine ⟨fun p a width reg => ?_, fun s a width reg h => ?_⟩
  · rw [hostRegister_eq_some_iff, hostAddress, Option.map_eq_some_iff]
    simp only [eq_comm (b := a)]
  · refine ⟨_, _, congrArg (Option.map fun reg => bytesOfReg (regRead s reg)) h, regOfBytes_bytesOfReg _, fun k hk => ?_⟩
    simp [hk]

/-! The access functions of the bank -/

theorem getLsbD_byteValue (b : BitVec 8) (k : Nat) :
    (b.zeroExtend 16 : RegValue).getLsbD k = (decide (k < 8) && b.getLsbD k) := by
  by_cases hk : k < 8
  · simp [hk, show k < 16 by omega]
  · simp [hk, BitVec.getLsbD_of_ge b k (by omega)]

/-- Settles O10: the reads bit by bit from the bits of each kind of value, the writes by definition. -/
theorem registerAccessFunctions : Obligations.RegisterAccessFunctions := by
  unfold Obligations.RegisterAccessFunctions
  intro s v
  exact ⟨⟨rfl, rfl, getLsbD_tctlValue s.ctc s.ps, getLsbD_bitValue s.ocie, getLsbD_bitValue s.ocf,
    getLsbD_byteValue s.ddr, getLsbD_byteValue s.port⟩, rfl, rfl, rfl, rfl, rfl, rfl, rfl⟩

end Sys2Proof.Machine
end

section
/-! PROOFS. Encoding (30_encoding): a word is the fields of its format and no more (R80 to R84), which words are illegal and
why (R85, 60_exceptions R205), and what the sequencer's turn does with a word it fetched (R90). -/

namespace Sys2Proof

/-! The checks of the decoder (R85) -/

theorem decodeWord_of_ofBits_none {w : Word} (h : Opcode.ofBits (opField w) = none) :
    decodeWord w = .error .illegalOpcode := by
  simp only [decodeWord, h]

theorem decodeWord_of_ofBits {w : Word} {o : Opcode} (h : Opcode.ofBits (opField w) = some o) :
    decodeWord w = if w &&& o.format.mbz ≠ 0 then .error .reservedField
      else if o.format.hasReg = true ∧ regField w = 7 then .error .reservedRegister
      else .ok (o.command w) := by
  simp only [decodeWord, h, Bool.and_eq_true, beq_iff_eq]

/-- What decoding can do: the first check of R85 that fails names the cause, and a word that passes all three is a command. -/
theorem decodeWord_cases (w : Word) :
    (Opcode.ofBits (opField w) = none ∧ decodeWord w = .error .illegalOpcode) ∨
    ∃ o : Opcode, opField w = o.bits ∧
      ((w &&& o.format.mbz ≠ 0 ∧ decodeWord w = .error .reservedField) ∨
        (w &&& o.format.mbz = 0 ∧ (o.format.hasReg = true ∧ regField w = 7) ∧ decodeWord w = .error .reservedRegister) ∨
        (w &&& o.format.mbz = 0 ∧ ¬(o.format.hasReg = true ∧ regField w = 7) ∧ decodeWord w = .ok (o.command w))) := by
  cases ho : Opcode.ofBits (opField w) with
  | none => exact .inl ⟨rfl, decodeWord_of_ofBits_none ho⟩
  | some o =>
    refine .inr ⟨o, (bits_of_ofBits ho).symm, ?_⟩
    rw [decodeWord_of_ofBits ho]
    by_cases hzero : w &&& o.format.mbz = 0
    · rw [if_neg (not_not.mpr hzero)]
      by_cases hreg : o.format.hasReg = true ∧ regField w = 7
      · exact .inr (.inl ⟨hzero, hreg, if_pos hreg⟩)
      · exact .inr (.inr ⟨hzero, hreg, if_neg hreg⟩)
    · exact .inl ⟨hzero, if_pos hzero⟩

/-! The word of a command -/

/-- The word of every command has its opcode's number and no reserved bit. -/
theorem fixedBits_encodeWord (i : Instr) : Laws.FixedBits.Statement i := by
  cases i with
  | rd r => exact Laws.FixedBits.rd r
  | wr r imm => exact Laws.FixedBits.wr r imm
  | bset r imm => exact Laws.FixedBits.bset r imm
  | bclr r imm => exact Laws.FixedBits.bclr r imm
  | btgl r imm => exact Laws.FixedBits.btgl r imm
  | dint => exact Laws.FixedBits.dint
  | eint => exact Laws.FixedBits.eint
  | wait => exact Laws.FixedBits.wait
  | nop => exact Laws.FixedBits.nop
  | jmp addr => exact Laws.FixedBits.jmp addr
  | reti => exact Laws.FixedBits.reti

/-- The operand fields of a command's word are its operands. -/
@[simp] theorem command_encodeWord (i : Instr) : i.opcode.command (encodeWord i) = i := by
  cases i <;> simp [Instr.opcode, Opcode.command, encodeWord]

@[simp] theorem opcode_command (o : Opcode) (w : Word) : (o.command w).opcode = o := by cases o <;> rfl

/-- A command is well formed exactly where its word's register field passes the check of R85 case 3. -/
theorem wf_command_iff (o : Opcode) (w : Word) :
    (o.command w).wf = true ↔ ¬(o.format.hasReg = true ∧ regField w = 7) := by
  cases o <;> simp [Opcode.command, Instr.wf, regOk, Opcode.format, Format.hasReg]

theorem decodeWord_encodeWord {i : Instr} (h : i.wf = true) : decodeWord (encodeWord i) = .ok i := by
  obtain ⟨hop, hzero⟩ := fixedBits_encodeWord i
  rw [← command_encodeWord i, wf_command_iff] at h
  rw [decodeWord_of_ofBits (hop ▸ ofBits_bits _), if_neg (not_not.mpr hzero), if_neg h, command_encodeWord]

/-- Settles O1: the word of a well-formed command passes the decoder's checks and its fields are the operands. -/
theorem decodeOfEncodeIsTheCommand : Obligations.DecodeOfEncodeIsTheCommand := by
  unfold Obligations.DecodeOfEncodeIsTheCommand
  exact fun i rest h => decode_bytesOfWord_of_ok rest (decodeWord_encodeWord h)

/-- Settles O4: each written word is the word of its command, which is well formed. -/
theorem specWordsDecodeToTheirCommands : Obligations.SpecWordsDecodeToTheirCommands := by
  unfold Obligations.SpecWordsDecodeToTheirCommands
  exact ⟨decodeWord_encodeWord (i := .rd 6) rfl, decodeWord_encodeWord (i := .wr 1 0xF423) rfl,
    decodeWord_encodeWord (i := .bset 2 0x000C) rfl, decodeWord_encodeWord (i := .bclr 4 0x0001) rfl,
    decodeWord_encodeWord (i := .btgl 6 0xFFFF) rfl, decodeWord_encodeWord (i := .dint) rfl,
    decodeWord_encodeWord (i := .eint) rfl, decodeWord_encodeWord (i := .wait) rfl,
    decodeWord_encodeWord (i := .nop) rfl, decodeWord_encodeWord (i := .jmp 0x0A) rfl,
    decodeWord_encodeWord (i := .reti) rfl⟩

/-- A mask in the immediate field is the same mask in the word. -/
theorem formatW_eq_or (o : Opcode) (r : BitVec 3) (mask : BitVec 16) :
    formatW o r mask = formatW o r 0 ||| mask.zeroExtend 32 := by
  apply BitVec.eq_of_getLsbD_eq
  intro k hk
  simp only [formatW, BitVec.getLsbD_or, BitVec.getLsbD_append]
  by_cases hlow : k < 16
  · simp [hlow, hk]
  · simp [hlow, BitVec.getLsbD_of_ge mask k (by omega)]

/-- Settles O5: the fixed words by evaluation; the mask of one bit is the same in the immediate field and in the word. -/
theorem pseudoInstructionsExpandToOneCommand : Obligations.PseudoInstructionsExpandToOneCommand := by
  unfold Obligations.PseudoInstructionsExpandToOneCommand
  refine ⟨rfl, rfl, fun n => ?_⟩
  have hmask : ∀ n : BitVec 3, ((1 <<< n.toNat : BitVec 16).zeroExtend 32 : Word) = 1#32 <<< n.toNat := by decide
  rw [← hmask n]
  exact ⟨formatW_eq_or .bset 5 _, formatW_eq_or .bset 6 _, formatW_eq_or .btgl 6 _⟩

/-! The fields of a word determine it -/

theorem getLsbD_eq_of_extractLsb'_eq {v w : Word} {start len : Nat} (h : v.extractLsb' start len = w.extractLsb' start len)
    {k : Nat} (hlo : start ≤ k) (hhi : k < start + len) : v.getLsbD k = w.getLsbD k := by
  have hbit := congrArg (fun x => x.getLsbD (k - start)) h
  simpa [show k - start < len by omega, show start + (k - start) = k by omega] using hbit

theorem extractLsb'_eq_zero_iff (w : Word) (start len : Nat) :
    w.extractLsb' start len = 0 ↔ ∀ k, start ≤ k → k < start + len → w.getLsbD k = false := by
  constructor
  · intro h k hlo hhi
    have hbit := getLsbD_eq_of_extractLsb'_eq (w := 0) (h.trans BitVec.extractLsb'_zero.symm) hlo hhi
    simpa using hbit
  · intro h
    apply BitVec.eq_of_getLsbD_eq
    intro k hk
    simp [h (start + k) (by omega) (by omega)]

theorem and_mbz_w_eq_zero_iff (w : Word) :
    w &&& Format.w.mbz = 0 ↔ w.getLsbD 27 = false ∧ w.extractLsb' 16 8 = 0 := by
  have hmask : ∀ k < 32, Format.w.mbz.getLsbD k = true ↔ k = 27 ∨ 16 ≤ k ∧ k < 24 := by decide
  rw [and_eq_zero_iff_bits, extractLsb'_eq_zero_iff]
  grind

theorem and_mbz_r_eq_zero_iff (w : Word) :
    w &&& Format.r.mbz = 0 ↔ w.getLsbD 27 = false ∧ w.extractLsb' 0 24 = 0 := by
  have hmask : ∀ k < 32, Format.r.mbz.getLsbD k = true ↔ k = 27 ∨ k < 24 := by decide
  rw [and_eq_zero_iff_bits, extractLsb'_eq_zero_iff]
  grind

theorem and_mbz_j_eq_zero_iff (w : Word) : w &&& Format.j.mbz = 0 ↔ w.extractLsb' 8 20 = 0 := by
  have hmask : ∀ k < 32, Format.j.mbz.getLsbD k = true ↔ 8 ≤ k ∧ k < 28 := by decide
  rw [and_eq_zero_iff_bits, extractLsb'_eq_zero_iff]
  grind

theorem and_mbz_z_eq_zero_iff (w : Word) : w &&& Format.z.mbz = 0 ↔ w.extractLsb' 0 28 = 0 := by
  have hmask : ∀ k < 32, Format.z.mbz.getLsbD k = true ↔ k < 28 := by decide
  rw [and_eq_zero_iff_bits, extractLsb'_eq_zero_iff]
  grind

/-- The fields of each format leave no bit out: a bit of a word is the opcode's, a reserved one or an operand's (R81). -/
theorem bit_field_cases (f : Format) : ∀ k < 32, 28 ≤ k ∨ f.mbz.getLsbD k = true ∨ (f.hasReg = true ∧ 24 ≤ k ∧ k < 27) ∨
    (f = .w ∧ k < 16) ∨ (f = .j ∧ k < 8) := by
  cases f <;> decide

/-- The operand fields that a command holds are those of its opcode's format. -/
theorem fields_eq_of_command_eq {o : Opcode} {v w : Word} (h : o.command v = o.command w) :
    (o.format.hasReg = true → regField v = regField w) ∧ (o.format = .w → immField v = immField w) ∧
    (o.format = .j → addrField v = addrField w) := by
  cases o <;> simp_all [Opcode.command, Opcode.format, Format.hasReg]

/-- The opcode, the command it makes of its operand fields, and the reserved bits being 0 determine the word. -/
theorem eq_of_command_eq {o : Opcode} {v w : Word} (hop : opField v = opField w) (hv : v &&& o.format.mbz = 0)
    (hw : w &&& o.format.mbz = 0) (hcmd : o.command v = o.command w) : v = w := by
  obtain ⟨hreg, himm, haddr⟩ := fields_eq_of_command_eq hcmd
  apply BitVec.eq_of_getLsbD_eq
  intro k hk
  rcases bit_field_cases o.format k hk with hlo | hmbz | ⟨hf, hlo, hhi⟩ | ⟨hf, hhi⟩ | ⟨hf, hhi⟩
  · exact getLsbD_eq_of_extractLsb'_eq hop hlo hk
  · exact ((and_eq_zero_iff_bits v _).mp hv k hk hmbz).trans ((and_eq_zero_iff_bits w _).mp hw k hk hmbz).symm
  · exact getLsbD_eq_of_extractLsb'_eq (hreg hf) hlo hhi
  · exact getLsbD_eq_of_extractLsb'_eq (himm hf) k.zero_le (by omega)
  · exact getLsbD_eq_of_extractLsb'_eq (haddr hf) k.zero_le (by omega)

theorem encodeWord_command {o : Opcode} {w : Word} (hop : opField w = o.bits) (hzero : w &&& o.format.mbz = 0) :
    encodeWord (o.command w) = w := by
  obtain ⟨hop', hzero'⟩ := fixedBits_encodeWord (o.command w)
  have hcmd := command_encodeWord (o.command w)
  rw [opcode_command] at hop' hzero' hcmd
  exact eq_of_command_eq (hop'.trans hop.symm) hzero' hzero hcmd

/-- Settles O2: the word of the decoded command has the fields of the given word, and both have no reserved bit. -/
theorem encodeOfDecodeIsTheWord : Obligations.EncodeOfDecodeIsTheWord := by
  unfold Obligations.EncodeOfDecodeIsTheWord
  intro w i h
  rcases decodeWord_cases w with ⟨-, hd⟩ | ⟨o, hop, ⟨-, hd⟩ | ⟨-, -, hd⟩ | ⟨hzero, hreg, hd⟩⟩
  · cases hd.symm.trans h
  · cases hd.symm.trans h
  · cases hd.symm.trans h
  · obtain rfl := Except.ok.inj (hd.symm.trans h)
    exact ⟨encodeWord_command hop hzero, (wf_command_iff o w).mpr hreg⟩

/-! Which words are illegal -/

open Machine (ReservedBitSet)

theorem ofBits_eq_none_iff : ∀ op : BitVec 4, Opcode.ofBits op = none ↔ op.toNat = 0x0 ∨ 0xC ≤ op.toNat := by decide

theorem bits_bounds (o : Opcode) : 1 ≤ o.bits.toNat ∧ o.bits.toNat ≤ 0xB := by cases o <;> decide

/-- The opcodes whose format has a register field are the five of register access (R82). -/
theorem hasReg_iff (o : Opcode) : o.format.hasReg = true ↔ 1 ≤ o.bits.toNat ∧ o.bits.toNat ≤ 5 := by cases o <;> decide

/-- The reserved bits as R90 lists them are those of the format's mask. -/
theorem reservedBitSet_iff {o : Opcode} {w : Word} (h : opField w = o.bits) :
    ReservedBitSet w ↔ w &&& o.format.mbz ≠ 0 := by
  unfold ReservedBitSet
  rw [h]
  cases o <;> simp only [Opcode.bits, Opcode.format, ne_eq, and_mbz_w_eq_zero_iff, and_mbz_r_eq_zero_iff,
    and_mbz_j_eq_zero_iff, and_mbz_z_eq_zero_iff, not_and_or, Bool.not_eq_false] <;> rfl

/-- Settles O3: opcode by opcode, the check that fails first names the cause. -/
theorem illegalWordsAreRejectedInOrder : Obligations.IllegalWordsAreRejectedInOrder := by
  unfold Obligations.IllegalWordsAreRejectedInOrder
  intro w
  dsimp only
  rw [← regField, ← ofBits_eq_none_iff]
  rcases decodeWord_cases w with ⟨hnone, hd⟩ | ⟨o, hop, hd⟩
  · have hop := (ofBits_eq_none_iff _).mp hnone
    have hlegal : ¬(1 ≤ (opField w).toNat ∧ (opField w).toNat ≤ 0xB) := by omega
    have haccess : ¬(1 ≤ (opField w).toNat ∧ (opField w).toNat ≤ 5) := by omega
    rw [hd, hnone]
    simp only [reduceCtorEq, Except.error.injEq, hlegal, haccess, false_and, and_self]
  · rw [reservedBitSet_iff hop, hop, ofBits_bits, ← hasReg_iff]
    rcases hd with ⟨hset, hd⟩ | ⟨hzero, hreg, hd⟩ | ⟨hzero, hreg, hd⟩ <;> rw [hd]
    · simp only [reduceCtorEq, Except.error.injEq, bits_bounds o, hset, ne_eq, not_false_eq_true, not_true_eq_false,
        false_and, and_false, and_self]
    · simp only [reduceCtorEq, Except.error.injEq, hzero, hreg, ne_eq, not_true_eq_false, not_false_eq_true, and_false,
        and_self]
    · simp only [reduceCtorEq, hzero, ne_eq, not_true_eq_false, not_false_eq_true, and_false, true_and, hreg]

end Sys2Proof

namespace Sys2Proof.Machine

open Sys2Proof.Config (Agent)

/-! What the sequencer's turn does with a fetched word (R90) -/

theorem sequencerStep_of_ok {s : State} {w : Word} {i : Instr} (he : execOk s = true) (hw : romWord s s.pc = some w)
    (hd : decodeWord w = .ok i) : sequencerStep s = exec i s :=
  (sequencerStep_of_execOk he).trans (execStep_of_ok hw hd)

theorem sequencerStep_of_error {s : State} {w : Word} {why : IllegalWord} (he : execOk s = true)
    (hw : romWord s s.pc = some w) (hd : decodeWord w = .error why) :
    ∃ t, sequencerStep s = .next t ∧ EntersFault (illegalCause why).code s t :=
  ⟨_, (sequencerStep_of_execOk he).trans (execStep_of_error hw hd), entersFault_raiseFault _ s⟩

theorem step_of_nextAgent_sequencer {s : State} (h : nextAgent s = .sequencer) : step s = sequencerStep (takeTurn s) := by
  rw [step, h]; rfl

theorem nextAgent_of_agenda {s : State} {a : Agent} {rest : List Agent} (h : s.agenda = a :: rest) : nextAgent s = a := by
  rw [nextAgent, h]

/-- Settles O40: the cause the decoder names is the one the turn enters. -/
theorem illegalWordEntersFault : Obligations.IllegalWordEntersFault := by
  unfold Obligations.IllegalWordEntersFault
  intro s w he hw
  obtain ⟨hopcode, hfield, hregister⟩ := illegalWordsAreRejectedInOrder w
  exact ⟨fun h => sequencerStep_of_error he hw (hopcode.mpr h),
    fun h hset => sequencerStep_of_error he hw (hfield.mpr ⟨h, hset⟩),
    fun h hset h7 => sequencerStep_of_error he hw (hregister.mpr ⟨h, hset, h7⟩)⟩

/-- Settles O6: the turn is the sequencer's, and its turn executes the word it fetches. -/
theorem stepExecutesTheDecodedCommand : Obligations.StepExecutesTheDecodedCommand := by
  unfold Obligations.StepExecutesTheDecodedCommand
  intro s rest w i hagenda he hw hd
  have hturn : takeTurn s = { s with agenda := rest, draws := s.draws + 1 } := by rw [takeTurn, hagenda]; rfl
  rw [step_of_nextAgent_sequencer (nextAgent_of_agenda hagenda), ← hturn]
  exact sequencerStep_of_ok (s := takeTurn s) he hw hd

/-- Settles O7: every agent's step gives a next state, so the turn of whichever comes does. -/
theorem everyStepGivesANextState : Obligations.EveryStepGivesANextState := by
  unfold Obligations.EveryStepGivesANextState
  exact fun s => agentStep_next (nextAgent s) (takeTurn s)

/-! A placed word (log 7) -/

/-- Read after write of the ROM: the word programmed, and every other word as before (20_memory R61). -/
theorem readWord_putWord (p : Config.Params) (m : List Host.Cell) (a : RomAddr) (w : Word) (c : RomAddr) :
    Memory.readWord p (Memory.putWord p m a w) c = if c = a then some w else Memory.readWord p m c := by
  have hbyte {k : Nat} (hk : k < 4) : Memory.byteAt p (Memory.putWord p m a w) (4 * c.toNat + k) =
      if c = a then byteOfWord w k else Memory.byteAt p m (4 * c.toNat + k) := by
    rw [Memory.byteAt_putWord, show (4 * c.toNat + k) / 4 = c.toNat by omega, show (4 * c.toNat + k) % 4 = k by omega]
    simp only [BitVec.toNat_inj]
  have hbyte0 := hbyte (k := 0) (by decide)
  rw [Nat.add_zero] at hbyte0
  rw [Memory.readWord_eq, Memory.readWord_eq, hbyte (k := 3) (by decide), hbyte (k := 2) (by decide),
    hbyte (k := 1) (by decide), hbyte0]
  split
  · rw [Memory.byteOfWord_append]
  · rfl

theorem romWord_placeCommand (s : State) (w : Word) (a : RomAddr) :
    romWord (placeCommand s w) a = if a = s.pc then some w else romWord s a := readWord_putWord ..

/-- A placed word may be executed: what would be accepted instead is held off by `EIP`. -/
theorem execOk_placeCommand (s : State) (w : Word) : execOk (placeCommand s w) = true := by
  have haccept : acceptOk (placeCommand s w) = false := by
    rw [Bool.eq_false_iff]
    intro h
    obtain ⟨-, hgie, hdelay, hisv, hocie, hocf⟩ := (acceptOk_iff _).mp h
    obtain ⟨heip, hawake⟩ := Bool.or_eq_false_iff.mp hdelay
    exact Bool.false_ne_true (hawake.symm.trans ((acceptOk_iff _).mpr ⟨rfl, hgie, heip, hisv, hocie, hocf⟩))
  exact (execOk_iff _).mpr ⟨rfl, rfl, haccept⟩

theorem tableWord_toNat (w : Word) : tableWord 32 w.toNat = w := by
  rw [tableWord, Nat.mod_eq_of_lt w.isLt, BitVec.ofNat_toNat, BitVec.setWidth_eq]

/-- Settles O8: the step after placing `w` is the turn of a sequencer that may execute and fetches `w`. -/
theorem placedWordIsExecutedNext : Obligations.PlacedWordIsExecutedNext := by
  unfold Obligations.PlacedWordIsExecutedNext
  intro s w
  rw [State.withFetchWord, tableWord_toNat]
  have hrom (a : RomAddr) : romWord (takeTurn (placeCommand s w)) a = if a = s.pc then some w else romWord s a :=
    romWord_placeCommand s w a
  have hfetch : romWord (takeTurn (placeCommand s w)) s.pc = some w := (hrom s.pc).trans (if_pos rfl)
  have hexec : execOk (takeTurn (placeCommand s w)) = true := execOk_placeCommand s w
  refine ⟨takeTurn (placeCommand s w), ?_, fun reg => by cases reg <;> rfl, rfl, rfl, rfl, rfl, rfl, rfl, rfl, rfl, hrom⟩
  rw [step_of_nextAgent_sequencer (nextAgent_of_agenda rfl)]
  cases hd : decodeWord w with
  | ok i => exact sequencerStep_of_ok hexec hfetch hd
  | error why => exact sequencerStep_of_error hexec hfetch hd

end Sys2Proof.Machine
end

section
/-! PROOFS. Register access (40_register_access): what each command leaves in its register (R100 to R105) and what it leaves
alone (R106), what becomes of the pending flag, and the LED pin under repeated toggles, in a row and over a run (R104, 00_scope
R8). -/

namespace Sys2Proof.Machine

open Sys2Proof.Config (Agent)

/-! What a register reads as after a write of it (20_memory R73) -/

/-- A write stores the implemented bits of the value; of `TIFR` it can only clear the flag. -/
theorem regRead_regWrite_same (s : State) (reg : Reg) (v : RegValue) :
    regRead (regWrite s reg v) reg = if reg = .tifr then regRead s .tifr &&& v else v &&& implemented reg := by
  have hmask : ∀ k < 16, (0x0001 : RegValue).getLsbD k = decide (k = 0) ∧ (0x000F : RegValue).getLsbD k = decide (k < 4) ∧
      (0x00FF : RegValue).getLsbD k = decide (k < 8) := by decide
  apply BitVec.eq_of_getLsbD_eq
  intro k hk
  obtain ⟨h1, h4, h8⟩ := hmask k hk
  cases reg with
  | tcnt | ocr => exact congrArg (BitVec.getLsbD · k) (BitVec.and_allOnes (x := v)).symm
  | tctl =>
    rw [if_neg (by decide), BitVec.getLsbD_and, implemented, h4]
    refine (getLsbD_tctlValue (v.getLsbD 3) (v.extractLsb' 0 3) k).trans ?_
    rw [BitVec.getLsbD_extractLsb', Nat.zero_add]
    by_cases hlow : k < 3
    · simp [hlow, show k < 4 by omega]
    · by_cases h3 : k = 3
      · simp [h3]
      · simp [hlow, h3, show ¬k < 4 by omega]
  | timsk =>
    rw [if_neg (by decide), BitVec.getLsbD_and, implemented, h1]
    refine (getLsbD_bitValue (v.getLsbD 0) k).trans ?_
    by_cases h0 : k = 0 <;> simp [h0]
  | tifr =>
    rw [if_pos rfl, BitVec.getLsbD_and]
    refine (getLsbD_bitValue (s.ocf && v.getLsbD 0) k).trans ?_
    rw [regRead, getLsbD_bitValue]
    by_cases h0 : k = 0 <;> simp [h0]
  | ddr | port =>
    rw [if_neg (by decide), BitVec.getLsbD_and, implemented, h8]
    refine (getLsbD_byteValue (v.extractLsb' 0 8) k).trans ?_
    by_cases hlow : k < 8 <;> simp [hlow]

/-! What the commands leave alone (R106) -/

/-- What a write that ends with the event `e` leaves: the other registers and everything but `pc`, `EIP` and the trace. -/
theorem emit_complete_regWrite_frame (e : Event) (reg : Reg) (v : RegValue) (s : State) :
    let t := emit e (complete (regWrite s reg v))
    SameBankBut reg s t ∧ PcAdvanced s t ∧ t.eip = false ∧ t.dl = s.dl ∧ t.trace = s.trace ++ [e] ∧ SameControl s t := by
  refine ⟨fun other hne => ?_, pcAdvanced_of (by simp), rfl, by simp, by simp, sameControl_of (by simp)⟩
  rw [regRead_emit, regRead_complete, regRead_regWrite_of_ne s v hne]

/-- Settles O11: the read writes the data latch alone, and no register reads it. -/
theorem rdLatchesTheRegister : Obligations.RdLatchesTheRegister := by
  unfold Obligations.RdLatchesTheRegister
  intro s r hr
  obtain ⟨reg, rfl⟩ := exists_reg_of_ne hr
  refine ⟨reg, rfl, _, exec_rd reg s, rfl, pcAdvanced_of rfl, rfl, rfl, fun other => ?_, sameControl_of (by simp)⟩
  rw [regRead_emit, regRead_complete]
  cases other <;> rfl

/-- Settles O12: the register takes what a write stores, and the write leaves the rest. -/
theorem wrStoresTheImplementedBits : Obligations.WrStoresTheImplementedBits := by
  unfold Obligations.WrStoresTheImplementedBits
  intro s r imm hr
  obtain ⟨reg, rfl⟩ := exists_reg_of_ne hr
  refine ⟨reg, rfl, _, exec_wr reg imm s, ?_, emit_complete_regWrite_frame _ reg imm s⟩
  rw [regRead_emit, regRead_complete, regRead_regWrite_same]

/-- Settles O13: to the flag of `TIFR` a value that has all its own bits makes no difference. -/
theorem bsetSetsTheMaskedBits : Obligations.BsetSetsTheMaskedBits := by
  unfold Obligations.BsetSetsTheMaskedBits
  intro s r imm hr
  obtain ⟨reg, rfl⟩ := exists_reg_of_ne hr
  refine ⟨reg, rfl, _, exec_bset reg imm s, ?_, emit_complete_regWrite_frame _ reg _ s⟩
  have habsorb (x : RegValue) : x &&& (x ||| imm) = x := by ext; simpa using Or.inl
  rw [regRead_readModifyWrite, regRead_regWrite_same]
  split
  · next h => rw [h, habsorb]
  · rfl

/-- Settles O14: clearing bits of a value leaves the reserved ones 0, so what is passed is what is stored. -/
theorem bclrClearsTheMaskedBits : Obligations.BclrClearsTheMaskedBits := by
  unfold Obligations.BclrClearsTheMaskedBits
  intro s r imm hr
  obtain ⟨reg, rfl⟩ := exists_reg_of_ne hr
  refine ⟨reg, rfl, _, exec_bclr reg imm s, ?_, emit_complete_regWrite_frame _ reg _ s⟩
  rw [regRead_readModifyWrite, regRead_regWrite_same]
  split
  · next h => rw [h, ← BitVec.and_assoc, BitVec.and_self]
  · rw [BitVec.and_assoc, BitVec.and_comm (~~~imm), ← BitVec.and_assoc, regRead_and_implemented]

/-- Settles O15: of the flag of `TIFR` an inverted bit is a cleared one, since a write cannot set it. -/
theorem btglInvertsTheMaskedBits : Obligations.BtglInvertsTheMaskedBits := by
  unfold Obligations.BtglInvertsTheMaskedBits
  intro s r imm hr
  obtain ⟨reg, rfl⟩ := exists_reg_of_ne hr
  refine ⟨reg, rfl, _, exec_btgl reg imm s, ?_, emit_complete_regWrite_frame _ reg _ s⟩
  have hclear (x : RegValue) : x &&& (x ^^^ imm) = x &&& ~~~imm := by
    ext k
    simp only [BitVec.getElem_and, BitVec.getElem_xor, BitVec.getElem_not]
    cases x[k] <;> simp
  rw [regRead_readModifyWrite, regRead_regWrite_same]
  split
  · next h => rw [h, hclear]
  · rfl

/-! The pending flag (R105) -/

/-- No write sets the pending flag. -/
theorem ocf_of_regWrite {s : State} {reg : Reg} {v : RegValue} (h : (regWrite s reg v).ocf = true) : s.ocf = true := by
  have hle := regWrite_ocf_le s reg v
  rw [h] at hle
  exact Bool.toNat_eq_one.mp (le_antisymm (Bool.toNat_le _) hle)

/-- No command sets the pending flag. -/
theorem ocf_of_exec {i : Instr} {s t : State} (h : exec i s = .next t) (hocf : t.ocf = true) : s.ocf = true := by
  rcases exec_cases i s with ⟨_, h'⟩ | ⟨_, _, h'⟩ | ⟨_, _, _, h'⟩ | ⟨_, _, _, _, _, h'⟩ | ⟨_, h'⟩ | ⟨_, h'⟩ | ⟨_, _, h'⟩ |
    ⟨_, _, h'⟩ | ⟨_, h'⟩ | ⟨_, _, h'⟩ | ⟨_, _, h'⟩ | ⟨_, _, h'⟩ <;>
    obtain rfl := Host.Outcome.next.inj (h'.symm.trans h)
  · exact hocf
  · exact hocf
  · exact ocf_of_regWrite hocf
  · exact ocf_of_regWrite hocf
  all_goals exact hocf

/-- Settles O16: each row is one line of truth table over the old flag and the mask bit. -/
theorem tifrReadModifyWriteTable : Obligations.TifrReadModifyWriteTable := by
  unfold Obligations.TifrReadModifyWriteTable
  refine ⟨fun s imm => ?_, fun i s t => ocf_of_exec⟩
  have hread : (regRead s .tifr).getLsbD 0 = s.ocf := getLsbD_bitValue s.ocf 0
  have hset : (regRead s .tifr ||| imm).getLsbD 0 = (s.ocf || imm.getLsbD 0) := by rw [BitVec.getLsbD_or, hread]
  have hclr : (regRead s .tifr &&& ~~~imm).getLsbD 0 = (s.ocf && !imm.getLsbD 0) := by
    rw [BitVec.getLsbD_and, hread, BitVec.getLsbD_not, decide_eq_true (by decide), Bool.true_and]
  have htgl : (regRead s .tifr ^^^ imm).getLsbD 0 = (s.ocf ^^ imm.getLsbD 0) := by rw [BitVec.getLsbD_xor, hread]
  refine ⟨⟨_, _, exec_bset .tifr imm s, ?_, hset, rfl⟩, ⟨_, _, exec_bclr .tifr imm s, ?_, hclr, rfl⟩,
    ⟨_, _, exec_btgl .tifr imm s, ?_, htgl, rfl⟩⟩
  · rw [readModifyWrite_ocf, if_pos rfl, hset]
    cases s.ocf <;> rfl
  · rw [readModifyWrite_ocf, if_pos rfl, hclr]
    cases s.ocf <;> rfl
  · rw [readModifyWrite_ocf, if_pos rfl, htgl]
    cases s.ocf <;> simp

/-! The LED pin under repeated toggles (R104) -/

/-- An involution repeated is the identity or itself, by the parity of the count. -/
theorem iterate_eq_ite_of_involutive {α : Type} {f : α → α} (hf : Function.Involutive f) (n : Nat) (x : α) :
    f^[n] x = if n % 2 = 0 then x else f x := by
  split
  · next h => rw [hf.iterate_even (Nat.even_iff.mpr h), id]
  · next h => rw [hf.iterate_odd (Nat.odd_iff.mpr (Nat.mod_two_ne_zero.mp h))]

theorem inverted_involutive : Function.Involutive Pin.inverted := fun p => by cases p <;> rfl

/-- `BTGL` of `PORT` inverts the implemented bits under its mask (10_state R27). -/
theorem port_btgl (mask : BitVec 16) (s : State) :
    (readModifyWrite .btgl .port (regRead s .port ^^^ mask) s).port = s.port ^^^ mask.extractLsb' 0 8 := by
  apply BitVec.eq_of_getLsbD_eq
  intro k hk
  simp [readModifyWrite, regWrite, regRead, hk, show k < 16 by omega]

/-- Toggling in a row: the masked bits are inverted once for each time. -/
theorem execTimes_btgl_port (n : Nat) (mask : BitVec 16) (s : State) : ∃ t, execTimes n (.btgl 6 mask) s = .next t ∧
    t.port = (· ^^^ mask.extractLsb' 0 8)^[n] s.port ∧ t.ddr = s.ddr := by
  induction n generalizing s with
  | zero => exact ⟨s, rfl, rfl, rfl⟩
  | succ n ih =>
    have hfirst : exec (.btgl 6 mask) s = .next (readModifyWrite .btgl .port (regRead s .port ^^^ mask) s) :=
      exec_btgl .port mask s
    obtain ⟨t, ht, hport, hddr⟩ := ih (readModifyWrite .btgl .port (regRead s .port ^^^ mask) s)
    refine ⟨t, ?_, ?_, hddr⟩
    · rw [execTimes, hfirst]; exact ht
    · rw [hport, port_btgl, Function.iterate_succ_apply]

/-! The LED pin over a run -/

/-- From `s` to `t` the trace counts `n` toggles of `PORT` more, and the level of the LED pin is inverted once for each. -/
structure TogglesLed (n : Nat) (s t : State) : Prop where
  params : t.params = s.params
  count : countEvents isPortToggle t = countEvents isPortToggle s + n
  level : led t = Pin.inverted^[n] (led s)

theorem TogglesLed.trans {m n : Nat} {s t u : State} (h : TogglesLed m s t) (h' : TogglesLed n t u) :
    TogglesLed (m + n) s u where
  params := h'.params.trans h.params
  count := by rw [h'.count, h.count, Nat.add_assoc]
  level := by rw [h'.level, h.level, ← Function.iterate_add_apply, Nat.add_comm]

/-- A pin is a function of what `DDR` and `PORT` read as (10_state R38). -/
theorem pin_congr {s t : State} (hddr : regRead t .ddr = regRead s .ddr) (hport : regRead t .port = regRead s .port)
    (i : Fin 8) : pin t i = pin s i := by
  have hbit (v : BitVec 8) : v.getLsbD i = (v.zeroExtend 16 : RegValue).getLsbD i := by
    rw [getLsbD_byteValue, decide_eq_true i.isLt, Bool.true_and]
  rw [pin_eq_pinOfBits, pin_eq_pinOfBits, hbit t.ddr, hbit t.port, hbit s.ddr, hbit s.port]
  exact congrArg₂ (fun d p : RegValue => pinOfBits (d.getLsbD i) (p.getLsbD i)) hddr hport

/-- A step that writes neither register of the pins and appends no toggle leaves the pin. -/
theorem togglesLed_zero {s t : State} (hparams : t.params = s.params) (hddr : regRead t .ddr = regRead s .ddr)
    (hport : regRead t .port = regRead s .port) (hcount : countEvents isPortToggle t = countEvents isPortToggle s) :
    TogglesLed 0 s t where
  params := hparams
  count := hcount
  level := by rw [led, led, hparams]; exact pin_congr hddr hport _

/-- `BTGL` of `PORT` with the LED's mask bit is one toggle of the LED. -/
theorem togglesLed_btgl {s : State} {mask : BitVec 16} (hmask : mask.getLsbD s.params.ledBit.val = true) :
    TogglesLed 1 s (readModifyWrite .btgl .port (regRead s .port ^^^ mask) s) where
  params := rfl
  count := countEvents_emit isPortToggle _ _
  level := by
    refine (pin_btgl_port s mask s.params.ledBit).trans ?_
    rw [hmask, led, pin_eq_pinOfBits]
    cases s.ddr.getLsbD s.params.ledBit <;> cases s.port.getLsbD s.params.ledBit <;> rfl

/-- Only an access of `PORT` is a toggle in the trace. -/
theorem isPortToggle_bus_of_ne {kind : BusKind} {reg : Reg} {rd wr : Option RegValue} {stamp : Stamp} (h : reg ≠ .port) :
    isPortToggle (.bus kind reg rd wr stamp) = false := by
  cases reg with
  | port => exact absurd rfl h
  | tcnt | ocr | tctl | timsk | tifr | ddr => cases kind <;> rfl

/-- A command that does not write `PORT` appends no toggle. -/
theorem countToggles_exec_of_not_writes {i : Instr} {s t : State} (h : exec i s = .next t) (hw : ¬Writes i .port) :
    countEvents isPortToggle t = countEvents isPortToggle s := by
  rcases exec_cases i s with ⟨_, h'⟩ | ⟨_, _, h'⟩ | ⟨_, _, _, h'⟩ | ⟨kind, reg, v, new, hi, h'⟩ | ⟨_, h'⟩ | ⟨_, h'⟩ |
    ⟨_, _, h'⟩ | ⟨_, _, h'⟩ | ⟨_, h'⟩ | ⟨_, _, h'⟩ | ⟨_, _, h'⟩ | ⟨_, _, h'⟩ <;>
    obtain rfl := Host.Outcome.next.inj (h'.symm.trans h)
  case inr.inr.inr.inl =>
    have hne : reg ≠ .port := fun he => hw (he ▸ writes_of_bitCommand hi)
    simp [countEvents, isPortToggle_bus_of_ne hne]
  all_goals simp [countEvents, isPortToggle]

/-- A command that writes neither `DDR` nor `PORT`, or toggles `PORT` under a mask with the LED's bit. -/
def OnlyTogglesLed (p : Config.Params) (i : Instr) : Prop :=
  ¬Writes i .ddr ∧ (Writes i .port → ∃ mask, i = .btgl 6 mask ∧ mask.getLsbD p.ledBit.val = true)

/-- Such a command toggles the LED once or leaves it. -/
theorem togglesLed_of_exec {i : Instr} {s t : State} (h : exec i s = .next t) (hi : OnlyTogglesLed s.params i) :
    ∃ n, TogglesLed n s t := by
  obtain ⟨hddr, hport⟩ := hi
  by_cases hw : Writes i .port
  · obtain ⟨mask, rfl, hmask⟩ := hport hw
    obtain rfl := Host.Outcome.next.inj ((exec_btgl .port mask s).symm.trans h)
    exact ⟨1, togglesLed_btgl hmask⟩
  · exact ⟨0, togglesLed_zero (sameSurroundings_of_exec h).params (regRead_exec_of_not_writes h hddr)
      (regRead_exec_of_not_writes h hw) (countToggles_exec_of_not_writes h hw)⟩

/-- The clock leaves the pins and appends at most a match. -/
theorem togglesLed_clk (s : State) : TogglesLed 0 s (clk s) := by
  refine togglesLed_zero (clk_params s) (regRead_clk s (by decide) (by decide)) (regRead_clk s (by decide) (by decide)) ?_
  rcases clk_cases s with ⟨_, hc⟩ | ⟨_, _, hc⟩ | ⟨_, _, hc⟩ <;> rw [hc]
  · rfl
  · rfl
  · exact countEvents_emit isPortToggle _ _

/-- A step other than a reset toggles the LED or leaves it, if the command it executes is such a one. -/
theorem togglesLed_of_agentStep {a : Agent} {s t : State} (h : agentStep a s = .next t) (ha : a ≠ .reset)
    (hx : a = .sequencer → ∀ i, Fetches s i → OnlyTogglesLed s.params i) : ∃ n, TogglesLed n s t := by
  rcases agentStep_cases h with ⟨_, rfl⟩ | ⟨hreset, _⟩ |
    ⟨hseq, ⟨_, rfl⟩ | ⟨_, _, rfl⟩ | ⟨_, he, w, hw, ⟨_, _, rfl⟩ | ⟨i, hd, hi⟩⟩⟩
  · exact ⟨0, togglesLed_clk s⟩
  · exact absurd hreset ha
  · exact ⟨0, togglesLed_zero rfl rfl rfl (countEvents_emit isPortToggle _ _)⟩
  · exact ⟨0, togglesLed_zero rfl rfl rfl rfl⟩
  · exact ⟨0, togglesLed_zero rfl rfl rfl (countEvents_emit isPortToggle _ _)⟩
  · exact togglesLed_of_exec hi (hx hseq i ⟨he, w, hw, hd⟩)

/-- Over the first `m` steps of a run of such commands the level of the LED pin is inverted once for each toggle. -/
theorem togglesLed_of_run {who : Nat → Agent} {r : Nat → State} (hr : IsRun who r) {m : Nat}
    (hreset : ∀ k, k < m → who k ≠ .reset)
    (hx : ∀ k, k < m → who k = .sequencer → ∀ i, Fetches (r k) i → OnlyTogglesLed (r 0).params i) :
    ∃ n, TogglesLed n (r 0) (r m) := by
  induction m with
  | zero => exact ⟨0, rfl, rfl, rfl⟩
  | succ m ih =>
    obtain ⟨n, hn⟩ := ih (fun k hk => hreset k (by omega)) fun k hk => hx k (by omega)
    obtain ⟨n', hn'⟩ := togglesLed_of_agentStep (hr m) (hreset m (by omega)) (hn.params ▸ hx m (by omega))
    exact ⟨n + n', hn.trans hn'⟩

/-- Settles O18: in a row by induction on the count, over a run by induction on its steps; inverting is an involution. -/
theorem toggleParity : Obligations.ToggleParity := by
  unfold Obligations.ToggleParity
  refine ⟨fun n mask s => ?_, fun who r n new hr hreset hx htrace => ?_⟩
  · obtain ⟨t, ht, hport, hddr⟩ := execTimes_btgl_port n mask s
    have hinv : Function.Involutive (· ^^^ mask.extractLsb' 0 8) := fun p => by simp
    exact ⟨t, ht, hport.trans (iterate_eq_ite_of_involutive hinv n s.port), hddr⟩
  · obtain ⟨d, -, hcount, hlevel⟩ := togglesLed_of_run (m := n + 1) hr (fun k hk => hreset k (by omega))
      fun k hk => hx k (by omega)
    have hd : d = new.countP isPortToggle := by
      rw [countEvents, htrace, List.countP_append] at hcount
      exact (Nat.add_left_cancel hcount).symm
    rw [observed, hlevel, hd, iterate_eq_ite_of_involutive inverted_involutive]

end Sys2Proof.Machine
end

section
/-! PROOFS. Sequencing (41_sequencing): the commands `NOP`, `JMP` and `WAIT` (R120 to R122), the first compare match after a
state (45_timer R147), and the end of a wait by it, in clock steps alone and in a weakly fair run (00_scope R7, R8). -/

namespace Sys2Proof

/-! The words of a format without a register field (30_encoding R81, R90) -/

/-- A word of such an opcode is its command or has a reserved bit. -/
theorem decodeWord_of_no_register {o : Opcode} {w : Word} (hop : opField w = o.bits) (hreg : o.format.hasReg = false) :
    decodeWord w = if w &&& o.format.mbz = 0 then .ok (o.command w) else .error .reservedField := by
  rw [decodeWord_of_ofBits (hop ▸ ofBits_bits o), hreg, ite_not]
  simp

/-- An opcode without operands has one legal word. -/
theorem and_mbz_eq_zero_iff_of_command_eq {o : Opcode} {i : Instr} {w : Word} (hop : opField w = o.bits)
    (hcmd : o.command w = i) : w &&& o.format.mbz = 0 ↔ w = encodeWord i := by
  subst hcmd
  constructor
  · exact fun hzero => (encodeWord_command hop hzero).symm
  · intro h
    have hzero := (fixedBits_encodeWord (o.command w)).2
    rwa [opcode_command, ← h] at hzero

end Sys2Proof

namespace Sys2Proof.Machine

open Sys2Proof.Config (Agent)

/-! The sequencing commands -/

/-- Settles O22: completing a command writes `pc` and `EIP` alone; a legal word of opcode 9 is the word of `NOP`. -/
theorem nopOnlyAdvances : Obligations.NopOnlyAdvances := by
  unfold Obligations.NopOnlyAdvances
  refine ⟨fun s => ⟨complete s, rfl, pcAdvanced_of rfl, rfl, rfl, rfl, regRead_complete s, sameControl_of (by simp)⟩,
    fun w hop => ?_⟩
  have hword : encodeWord .nop = 0x90000000 := rfl
  rw [decodeWord_of_no_register (o := .nop) hop rfl]
  simp only [and_mbz_eq_zero_iff_of_command_eq (o := .nop) (i := .nop) hop rfl, hword]
  rfl

/-- Settles O23: the jump writes `pc` and `EIP` alone; the reserved bits of its word are bits 27:8. -/
theorem jmpSetsThePc : Obligations.JmpSetsThePc := by
  unfold Obligations.JmpSetsThePc
  refine ⟨fun s addr => ⟨{ s with pc := addr, eip := false }, rfl, rfl, rfl, rfl, rfl, fun reg => ?_,
    sameControl_of (by simp)⟩, fun w hop => ?_⟩
  · cases reg <;> rfl
  · rw [decodeWord_of_no_register (o := .jmp) hop rfl]
    simp only [Opcode.format, and_mbz_j_eq_zero_iff]
    rfl

/-- Asleep there is no `EXEC` (60_exceptions R195). -/
theorem execOk_of_asleep {s : State} (h : s.slp = true) : execOk s = false := by simp [execOk, h]

/-- Settles O24: the state after `WAIT`, element by element, is asleep. -/
theorem waitSleepsAfterItself : Obligations.WaitSleepsAfterItself := by
  unfold Obligations.WaitSleepsAfterItself
  intro s hisv
  refine ⟨_, exec_wait_of_normal hisv, rfl, pcAdvanced_of rfl, rfl, rfl, rfl, rfl, rfl, rfl, rfl, ⟨rfl, rfl, rfl⟩,
    fun reg => ?_, sameRom_of rfl rfl, rfl, rfl, execOk_of_asleep rfl⟩
  cases reg <;> rfl

/-! The first match after a state (45_timer R147) -/

/-- How many ticks fall into the first `n` clock steps after `s` where the prescaler divides by `p` (45_timer R140). -/
def ticksWithin (p : Nat) (s : State) (n : Nat) : Nat := (s.psc.toNat % p + n) / p

/-- How many ticks only count before the tick that matches: from the count up to the threshold, through 0 where it stands
above (45_timer R142). -/
def ticksToMatch (s : State) : Nat := (s.ocr - s.tcnt).toNat

/-- The number of the clock step that is the first match (45_timer R147). -/
def clocksToMatch (p : Nat) (s : State) : Nat := p - s.psc.toNat % p + ticksToMatch s * p

/-- The count of ticks as R147 writes it. -/
theorem ticksToMatch_eq (s : State) : ticksToMatch s = if s.tcnt.toNat ≤ s.ocr.toNat then s.ocr.toNat - s.tcnt.toNat
    else 65536 - s.tcnt.toNat + s.ocr.toNat := by
  have ht := s.tcnt.isLt
  have ho := s.ocr.isLt
  rw [ticksToMatch, BitVec.toNat_sub]
  split <;> omega

theorem ticksWithin_succ (p : Nat) (s : State) (n : Nat) :
    ticksWithin p s (n + 1) = ticksWithin p s n + if (s.psc.toNat + n + 1) % p = 0 then 1 else 0 := by
  have htick : p ∣ s.psc.toNat % p + n + 1 ↔ (s.psc.toNat + n + 1) % p = 0 := by
    rw [Nat.dvd_iff_mod_eq_zero, Nat.add_assoc, Nat.mod_add_mod, ← Nat.add_assoc]
  simp only [ticksWithin, ← Nat.add_assoc, Nat.succ_div, htick]

/-- The tick that matches falls into the first `n` clock steps exactly when the clock step of the match does. -/
theorem ticksWithin_le_iff {p : Nat} (hp : 0 < p) (s : State) (n : Nat) :
    ticksWithin p s n ≤ ticksToMatch s ↔ n < clocksToMatch p s := by
  have hmod := Nat.mod_lt s.psc.toNat hp
  rw [ticksWithin, ← Nat.lt_succ_iff, Nat.div_lt_iff_lt_mul hp, clocksToMatch, Nat.succ_mul]
  omega

/-- No earlier tick finds the counter at the threshold. -/
theorem tcnt_add_eq_ocr_iff {s : State} {k : Nat} (hk : k ≤ ticksToMatch s) :
    s.tcnt + BitVec.ofNat 16 k = s.ocr ↔ k = ticksToMatch s := by
  have hlt : k < 2 ^ 16 := Nat.lt_of_le_of_lt hk (s.ocr - s.tcnt).isLt
  rw [ticksToMatch, BitVec.add_comm, ← BitVec.eq_sub_iff_add_eq, ← BitVec.toNat_inj, BitVec.toNat_ofNat,
    Nat.mod_eq_of_lt hlt]

/-- Before the first match the counter counts the ticks. -/
theorem tcnt_clks_of_lt {s : State} {p : Nat} (h : divisor s.ps = some p) {n : Nat} (hn : n < clocksToMatch p s) :
    (clks n s).tcnt = s.tcnt + BitVec.ofNat 16 (ticksWithin p s n) := by
  have hp := (divisor_dvd h).1
  induction n with
  | zero => simp [ticksWithin, Nat.div_eq_of_lt (Nat.mod_lt _ hp)]
  | succ n ih =>
    have hle := (ticksWithin_le_iff hp s _).mpr hn
    rw [ticksWithin_succ] at hle ⊢
    rw [clks_succ, clk_tcnt, ticksAt_clks h, ih (by omega), (clks_frame n s).1]
    by_cases htick : (s.psc.toNat + n + 1) % p = 0
    · rw [if_pos htick] at hle ⊢
      have hcount : ticksWithin p s n ≠ ticksToMatch s := by omega
      simp [htick, tcnt_add_eq_ocr_iff (Nat.le_of_succ_le hle), hcount, BitVec.ofNat_add, BitVec.add_assoc]
    · simp [htick]

/-- Up to it, the first match is the only one. -/
theorem matchAt_iff_of_lt {s : State} {p : Nat} (h : divisor s.ps = some p) {n : Nat} (hn : n < clocksToMatch p s) :
    MatchAt s n ↔ n + 1 = clocksToMatch p s := by
  have hp := (divisor_dvd h).1
  have hle := (ticksWithin_le_iff hp s n).mpr hn
  have hnext := ticksWithin_le_iff hp s (n + 1)
  rw [ticksWithin_succ] at hnext
  rw [matchAt_iff, ticksAt_clks h, tcnt_clks_of_lt h hn, tcnt_add_eq_ocr_iff hle, decide_eq_true_iff]
  split at hnext <;> omega

/-- A clock step sets the pending flag exactly when it raises a match. -/
theorem clks_succ_ocf (n : Nat) (s : State) : (clks (n + 1) s).ocf = true ↔ (clks n s).ocf = true ∨ MatchAt s n := by
  rw [matchAt_iff, ← (clks_frame n s).1, clks_succ]
  rcases clk_cases (clks n s) with ⟨ht, hc⟩ | ⟨ht, hne, hc⟩ | ⟨ht, heq, hc⟩ <;> rw [hc, ht]
  · simp
  · simp [hne]
  · simp [heq]

theorem clocksToMatch_pos {p : Nat} (hp : 0 < p) (s : State) : 0 < clocksToMatch p s :=
  Nat.add_pos_left (Nat.sub_pos_of_lt (Nat.mod_lt _ hp)) _

/-- A flag that is clear stays clear until the first match. -/
theorem clks_ocf_of_lt {s : State} {p : Nat} (h : divisor s.ps = some p) (hocf : s.ocf = false) {n : Nat}
    (hn : n < clocksToMatch p s) : (clks n s).ocf = false := by
  induction n with
  | zero => exact hocf
  | succ n ih =>
    rw [Bool.eq_false_iff, ne_eq, clks_succ_ocf, matchAt_iff_of_lt h (by omega), ih (by omega)]
    simpa using hn.ne

/-- From the first match on a match is pending, whatever was pending before. -/
theorem clks_ocf_of_le {s : State} {p : Nat} (h : divisor s.ps = some p) {n : Nat} (hn : clocksToMatch p s ≤ n) :
    (clks n s).ocf = true := by
  obtain ⟨m, hm⟩ := Nat.exists_eq_add_one.mpr (clocksToMatch_pos (divisor_dvd h).1 s)
  have hmatch : (clks (m + 1) s).ocf = true := (clks_succ_ocf m s).mpr (.inr ((matchAt_iff_of_lt h (by omega)).mpr hm.symm))
  obtain ⟨k, rfl⟩ := Nat.exists_eq_add_of_le hn
  rw [hm, clks_add]
  exact clks_ocf k hmatch

/-! Asleep with the interrupt on (R122) -/

/-- The sequencer sleeps, and a pending match is all that an acceptance lacks (60_exceptions R195). -/
structure AwaitsMatch (s : State) : Prop where
  flt : s.flt = false
  slp : s.slp = true
  gie : s.gie = true
  eip : s.eip = false
  isv : s.isv = false
  ocie : s.ocie = true

theorem AwaitsMatch.clks {s : State} (h : AwaitsMatch s) (n : Nat) : AwaitsMatch (clks n s) := by
  constructor <;> simp [clks_frame, h.flt, h.slp, h.gie, h.eip, h.isv, h.ocie]

theorem AwaitsMatch.acceptOk_eq {s : State} (h : AwaitsMatch s) : acceptOk s = s.ocf := by
  simp [acceptOk, irq, h.flt, h.gie, h.eip, h.isv, h.ocie]

/-- Settles O57: no turn is enabled while the flag is clear, and the first match sets it. -/
theorem firstMatchWakesTheSequencer : Obligations.FirstMatchWakesTheSequencer := by
  unfold Obligations.FirstMatchWakesTheSequencer
  intro s p hflt hslp hgie heip hisv hocie hocf hp
  have hs : AwaitsMatch s := ⟨hflt, hslp, hgie, heip, hisv, hocie⟩
  dsimp only
  rw [← ticksToMatch_eq, ← clocksToMatch]
  refine ⟨fun j hj => ?_, enterHandler (clks (clocksToMatch p s) s), ?_, rfl, rfl, ?_, ?_⟩
  · have haccept := (hs.clks j).acceptOk_eq.trans (clks_ocf_of_lt hp hocf hj)
    exact sequencerStep_of_neither haccept (execOk_of_asleep (hs.clks j).slp)
  · exact sequencerStep_of_acceptOk ((hs.clks _).acceptOk_eq.trans (clks_ocf_of_le hp (Nat.le_refl _)))
  · simp [clks_frame]
  · simp [clks_frame]

/-! The sequencer's next turn in a weakly fair run (00_scope R7) -/

/-- The sequencer has a step. -/
def Enabled (s : State) : Prop := acceptOk s = true ∨ execOk s = true

/-- In a run whose clock steps again and again there is a step before which it has stepped `m` times. -/
theorem exists_le_clockSteps {who : Nat → Agent} (hclock : ∀ n, ∃ k, n ≤ k ∧ who k = .clock) (n m : Nat) :
    ∃ k, n ≤ k ∧ m ≤ clockSteps who n k := by
  induction m with
  | zero => exact ⟨n, Nat.le_refl n, Nat.zero_le _⟩
  | succ m ih =>
    obtain ⟨k, hk, hm⟩ := ih
    obtain ⟨l, hl, hclk⟩ := hclock k
    have hmono := clockSteps_mono who hk hl
    refine ⟨l + 1, by omega, ?_⟩
    rw [clockSteps_succ who (hk.trans hl), if_pos hclk]
    omega

/-- Where a turn of the sequencer that has a step does not come, a run without reset is its clock steps. -/
theorem eq_clks_of_no_enabled_turn {who : Nat → Agent} {r : Nat → State} {n : Nat} (hr : IsRun who r)
    (hreset : ∀ k, n ≤ k → who k ≠ .reset)
    (hno : ∀ k, n ≤ k → who k = .sequencer → r k = clks (clockSteps who n k) (r n) → ¬Enabled (r k)) {k : Nat}
    (hk : n ≤ k) : r k = clks (clockSteps who n k) (r n) := by
  induction k, hk using Nat.le_induction with
  | base => simp
  | succ k hk ih =>
    rw [clockSteps_succ who hk]
    rcases agentStep_cases (hr k) with ⟨hw, ht⟩ | ⟨hw, -⟩ | ⟨hw, ⟨ha, -⟩ | ⟨-, -, ht⟩ | ⟨-, he, -⟩⟩
    · rw [if_pos hw, clks_succ, ← ih]; exact ht
    · exact absurd hw (hreset k hk)
    · exact absurd (.inl ha) (hno k hk hw ih)
    · rw [if_neg (by simp [hw]), Nat.add_zero]; exact ht.trans ih
    · exact absurd (.inr he) (hno k hk hw ih)

/-- In a weakly fair run without reset, a sequencer that enough clock steps would give a step for good takes one, and only
clock steps have come before it. -/
theorem exists_enabled_turn {who : Nat → Agent} {r : Nat → State} {n m : Nat} (hr : IsRun who r) (hfair : WeaklyFair who r)
    (hreset : ∀ k, n ≤ k → who k ≠ .reset) (hen : ∀ j, m ≤ j → Enabled (clks j (r n))) :
    ∃ k, n ≤ k ∧ who k = .sequencer ∧ r k = clks (clockSteps who n k) (r n) ∧ Enabled (r k) := by
  obtain ⟨hclock, hturn⟩ := hfair
  by_contra hno
  have hclks {k : Nat} (hk : n ≤ k) : r k = clks (clockSteps who n k) (r n) :=
    eq_clks_of_no_enabled_turn hr hreset (fun k hk hw heq he => hno ⟨k, hk, hw, heq, he⟩) hk
  obtain ⟨l, hl, hm⟩ := exists_le_clockSteps hclock n m
  have henabled (k : Nat) (hk : l ≤ k) : Enabled (r k) := by
    rw [hclks (hl.trans hk)]
    exact hen _ (hm.trans (clockSteps_mono who hl hk))
  obtain ⟨k, hk, hw⟩ := hturn l henabled
  exact hno ⟨k, hl.trans hk, hw, hclks (hl.trans hk), henabled k hk⟩

/-! Neither the clock nor an acceptance writes the ROM (20_memory R61) -/

theorem romWord_clks (n : Nat) (s : State) (a : RomAddr) : romWord (clks n s) a = romWord s a := by
  simp only [romWord, clks_frame]

theorem romWord_enterHandler (s : State) (a : RomAddr) : romWord (enterHandler s) a = romWord s a := rfl

/-! The run from the sleep to the handler's first command -/

section
variable {who : Nat → Agent} {r : Nat → State} {n : Nat}

/-- A sleeping sequencer with the interrupt on and the timer running accepts, after clock steps alone. -/
theorem exists_acceptance {p : Nat} (hr : IsRun who r) (hfair : WeaklyFair who r) (hreset : ∀ k, n ≤ k → who k ≠ .reset)
    (hs : AwaitsMatch (r n)) (hp : divisor (r n).ps = some p) :
    ∃ k, n ≤ k ∧ who k = .sequencer ∧ acceptOk (r k) = true ∧
      r (k + 1) = enterHandler (clks (clockSteps who n k) (r n)) := by
  obtain ⟨k, hk, hw, heq, henabled⟩ := exists_enabled_turn (m := clocksToMatch p (r n)) hr hfair hreset fun j hj =>
    .inl ((hs.clks j).acceptOk_eq.trans (clks_ocf_of_le hp hj))
  have haccept : acceptOk (r k) = true := henabled.resolve_right (by simp [heq, execOk_of_asleep (hs.clks _).slp])
  have hstep := hr k
  rw [AgentSteps, hw] at hstep
  refine ⟨k, hk, hw, haccept, ?_⟩
  rw [← heq]
  exact Host.Outcome.next.inj (hstep.symm.trans (sequencerStep_of_acceptOk haccept))

/-- With interrupts off, a sequencer neither faulted nor asleep executes the command at its `pc`, after clock steps alone. -/
theorem exists_execution {w : Word} {i : Instr} (hr : IsRun who r) (hfair : WeaklyFair who r)
    (hreset : ∀ k, n ≤ k → who k ≠ .reset) (hflt : (r n).flt = false) (hslp : (r n).slp = false)
    (hgie : (r n).gie = false) (hw : romWord (r n) (r n).pc = some w) (hd : decodeWord w = .ok i) :
    ∃ m, n ≤ m ∧ r m = clks (clockSteps who n m) (r n) ∧ exec i (r m) = .next (r (m + 1)) := by
  have hexec (j : Nat) : execOk (clks j (r n)) = true := by
    simp [execOk, acceptOk, clks_frame, hflt, hslp, hgie]
  obtain ⟨m, hm, hturn, heq, -⟩ := exists_enabled_turn (m := 0) hr hfair hreset fun j _ => .inr (hexec j)
  have hfetch : romWord (r m) (r m).pc = some w := by
    simpa [heq, romWord_clks, clks_frame] using hw
  have hstep := hr m
  rw [AgentSteps, hturn] at hstep
  exact ⟨m, hm, heq, (sequencerStep_of_ok (heq ▸ hexec _) hfetch hd).symm.trans hstep⟩

end

/-- Clock steps leave the LED pin. -/
theorem togglesLed_clks (n : Nat) (s : State) : TogglesLed 0 s (clks n s) := by
  induction n with
  | zero => exact ⟨rfl, rfl, rfl⟩
  | succ n ih => rw [clks_succ]; exact ih.trans (togglesLed_clk _)

/-- An acceptance leaves the LED pin. -/
theorem togglesLed_enterHandler (s : State) : TogglesLed 0 s (enterHandler s) :=
  togglesLed_zero rfl rfl rfl (countEvents_emit isPortToggle _ _)

theorem inverted_ne {p : Pin} (h : p ≠ .z) : p.inverted ≠ p := by
  cases p with
  | z => exact absurd rfl h
  | low | high => decide

/-- Settles O58: fairness gives the sleeping sequencer its acceptance and then the handler its first command, with clock steps
alone before each; up to that command nothing has touched the LED pin. -/
theorem fairRunsWakeTheSequencer : Obligations.FairRunsWakeTheSequencer := by
  unfold Obligations.FairRunsWakeTheSequencer
  intro who r n p hr hfair hreset hflt hslp hgie heip hisv hocie hp
  have hs : AwaitsMatch (r n) := ⟨hflt, hslp, hgie, heip, hisv, hocie⟩
  obtain ⟨k, hk, hw, haccept, hentry⟩ := exists_acceptance hr hfair hreset hs hp
  refine ⟨⟨k, hk, hw, haccept, by simp [hentry], by simp [hentry], by simp [hentry, clks_frame]⟩,
    fun w mask hrom hd hmask hled => ?_⟩
  have hhandler : romWord (r (k + 1)) (r (k + 1)).pc = some w := by
    simpa [hentry, romWord_enterHandler, romWord_clks, clks_frame] using hrom
  obtain ⟨m, hm, heqm, hexec⟩ := exists_execution hr hfair (fun j hj => hreset j (by omega))
    (by simp [hentry, clks_frame, hflt]) (by simp [hentry]) (by simp [hentry]) hhandler hd
  have hquiet : TogglesLed 0 (r n) (r m) := by
    rw [heqm, hentry]
    exact ((togglesLed_clks _ _).trans (togglesLed_enterHandler _)).trans (togglesLed_clks _ _)
  have htoggle : TogglesLed 1 (r m) (r (m + 1)) := by
    rw [← Host.Outcome.next.inj ((exec_btgl .port mask (r m)).symm.trans hexec)]
    exact togglesLed_btgl (by rw [hquiet.params]; exact hmask)
  have hled' : led (r m) ≠ .z := by rw [hquiet.level]; exact hled
  exact ⟨m, by omega, htoggle.level, by rw [observed, htoggle.level]; exact inverted_ne hled'⟩

end Sys2Proof.Machine
end

section
/-! PROOFS. Interrupt control (42_interrupt_control): the commands `DINT`, `EINT` and `RETI` (R130 to R132), and the command
after an `EINT`, which no acceptance comes before (R131, 10_state R34). -/

namespace Sys2Proof.Machine

/-! What keeps an acceptance off (60_exceptions R195) -/

theorem acceptOk_of_gie_off {s : State} (h : s.gie = false) : acceptOk s = false := by simp [acceptOk, h]

theorem acceptOk_of_eip {s : State} (h : s.eip = true) : acceptOk s = false := by simp [acceptOk, h]

/-- While the delay of `EIP` stands, a sequencer neither faulted nor asleep executes, after any number of clock steps: they set
the pending flag at most. -/
theorem sequencerStep_clks_of_eip {s : State} (hflt : s.flt = false) (hslp : s.slp = false) (heip : s.eip = true) (n : Nat) :
    sequencerStep (clks n s) = execStep (clks n s) := by
  obtain ⟨-, -, -, -, -, -, -, -, -, -, -, hdelay, hawake, hrunning, -⟩ := clks_frame n s
  exact sequencerStep_of_execOk ((execOk_iff _).2
    ⟨hrunning.trans hflt, hawake.trans hslp, acceptOk_of_eip (hdelay.trans heip)⟩)

/-! The commands -/

theorem exec_dint (s : State) : exec .dint s = .next (emit (.dint s.stamp) (complete { s with gie := false })) := rfl

theorem exec_eint (s : State) :
    exec .eint s = .next (emit (.eint s.stamp) { complete { s with gie := true } with eip := true }) := rfl

/-- Settles O28: `EINT` leaves the sequencer awake and unfaulted with the delay standing. -/
theorem commandAfterEintAlwaysRuns : Obligations.CommandAfterEintAlwaysRuns := by
  unfold Obligations.CommandAfterEintAlwaysRuns
  intro s t n hflt hslp h
  obtain rfl := Host.Outcome.next.inj ((exec_eint s).symm.trans h)
  apply sequencerStep_clks_of_eip
  exacts [hflt, hslp, rfl]

/-- Settles O26: the state after `DINT`, element by element, has interrupts disabled. -/
theorem dintDisablesInterrupts : Obligations.DintDisablesInterrupts := by
  unfold Obligations.DintDisablesInterrupts
  intro s
  exact ⟨_, exec_dint s, rfl, pcAdvanced_of rfl, rfl, rfl, rfl, rfl, rfl, rfl, rfl, ⟨rfl, rfl, rfl⟩,
    regRead_congr (by simp), sameRom_of rfl rfl, rfl, rfl, acceptOk_of_gie_off rfl⟩

/-- Settles O27: the state after `EINT`, element by element; its `EIP` is written after the wrapper's. -/
theorem eintEnablesInterrupts : Obligations.EintEnablesInterrupts := by
  unfold Obligations.EintEnablesInterrupts
  intro s
  exact ⟨_, exec_eint s, rfl, rfl, pcAdvanced_of rfl, rfl, rfl, rfl, rfl, rfl, rfl, ⟨rfl, rfl, rfl⟩,
    regRead_congr (by simp), sameRom_of rfl rfl, rfl, rfl⟩

/-- Settles O29: `RETI` at the handler's level leaves the handler, and no register of the bank reads what that writes. -/
theorem retiReturnsToTheSavedAddress : Obligations.RetiReturnsToTheSavedAddress := by
  unfold Obligations.RetiReturnsToTheSavedAddress
  intro s hisv
  exact ⟨leaveHandler s, exec_reti_of_handler hisv, rfl, rfl, rfl, rfl, rfl, rfl, rfl, rfl, rfl, ⟨rfl, rfl, rfl⟩,
    regRead_leaveHandler s, sameRom_of rfl rfl, rfl, rfl⟩

end Sys2Proof.Machine
end

section
/-! PROOFS. The timer (45_timer): the clock step and its tick (R140 to R145), when the matches of a run fall (R143 to R147,
R150), what becomes of a match while another is pending (R148), and acceptances against matches (R148, 60_exceptions R197). -/

namespace Sys2Proof.Machine

open Sys2Proof.Config (Agent)

/-! The clock step and its tick (R140 to R142) -/

/-- The factors the prescaler codes select (R141). -/
theorem ticksAt_iff (ps : BitVec 3) (n : BitVec 10) : ticksAt ps n = true ↔
    ∃ e ∈ [(1, 1), (2, 8), (3, 64), (4, 256), (5, 1024)], e.1 = ps.toNat ∧ n.toNat % e.2 = 0 := by
  have hcodes : ∀ ps : BitVec 3, ps = 0 ∨ ps = 1 ∨ ps = 2 ∨ ps = 3 ∨ ps = 4 ∨ ps = 5 ∨ ps = 6 ∨ ps = 7 := by decide
  rcases hcodes ps with rfl | rfl | rfl | rfl | rfl | rfl | rfl | rfl <;> simp [ticksAt, divisor]

/-- The clock step of a tick off the threshold. -/
theorem clk_of_counting_tick {s : State} (ht : ticksAt s.ps (s.psc + 1) = true) (hne : s.tcnt ≠ s.ocr) :
    clk s = { s with psc := s.psc + 1, tcnt := s.tcnt + 1 } := (clk_of_tick ht).trans (if_neg hne)

/-- The clock step of a tick on the threshold. -/
theorem clk_of_matching_tick {s : State} (ht : ticksAt s.ps (s.psc + 1) = true) (heq : s.tcnt = s.ocr) :
    clk s = emit (.compareMatch s.stamp)
      { s with psc := s.psc + 1, ocf := true, tcnt := if s.ctc then 0 else s.tcnt + 1 } :=
  (clk_of_tick ht).trans (if_pos heq)

/-- Settles O42: the three cases of a clock step, and the elements it leaves. -/
theorem clockStepAndTick : Obligations.ClockStepAndTick := by
  unfold Obligations.ClockStepAndTick
  intro s
  have hpsc : (s.psc + 1).toNat = (s.psc.toNat + 1) % 1024 := BitVec.toNat_add ..
  have htcnt : (s.tcnt + 1).toNat = (s.tcnt.toNat + 1) % 65536 := BitVec.toNat_add ..
  dsimp only
  rw [← hpsc, ← ticksAt_iff, ← htcnt]
  refine ⟨rfl, by rw [clk_psc], fun hidle => ?_, fun htick hne => ?_, fun htick heq => ?_, fun reg => regRead_clk s,
    ⟨clk_flt s, clk_fc s, clk_fpc s⟩, sameRom_of (clk_params s) (clk_rom s), by simp⟩
  · rw [clk_of_no_tick (Bool.eq_false_iff.mpr hidle)]
    exact ⟨rfl, rfl, rfl⟩
  · rw [clk_of_counting_tick htick hne]
    exact ⟨rfl, rfl, rfl⟩
  · rw [clk_of_matching_tick htick heq]
    exact ⟨rfl, rfl, apply_ite BitVec.toNat ..⟩

/-! A stopped timer (R145) -/

/-- Settles O43: where no code selects a factor, no clock step contains a tick. -/
theorem stoppedTimerNeverTicks : Obligations.StoppedTimerNeverTicks := by
  unfold Obligations.StoppedTimerNeverTicks
  intro s n hps
  have hnone : divisor s.ps = none := by rcases hps with h | h | h <;> rw [h] <;> rfl
  have htick (m : Nat) : ticksAt (clks m s).ps ((clks m s).psc + 1) = false := by
    simp only [ticksAt, clks_frame, hnone]
  obtain ⟨hcount, hflag, htrace⟩ : (clks n s).tcnt = s.tcnt ∧ (clks n s).ocf = s.ocf ∧ (clks n s).trace = s.trace := by
    induction n with
    | zero => exact ⟨rfl, rfl, rfl⟩
    | succ n ih => rw [clks_succ, clk_of_no_tick (htick n)]; exact ih
  exact ⟨hcount, hflag, htrace, clks_psc n s⟩

/-! Threshold zero (R150) -/

/-- Settles O47: a counter at the threshold 0 is cleared to it by every tick. -/
theorem thresholdZeroMatchesEveryTick : Obligations.ThresholdZeroMatchesEveryTick := by
  unfold Obligations.ThresholdZeroMatchesEveryTick
  intro s p n hctc hp hocr htcnt
  have hcount : (clks n s).tcnt = 0 := by
    induction n with
    | zero => exact htcnt
    | succ n ih => simp [clks_succ, clk_tcnt, clks_frame, ih, hocr, hctc]
  refine ⟨hcount, ?_⟩
  rw [matchAt_iff, ticksAt_clks hp, decide_eq_true_iff, hcount, hocr]
  exact and_iff_left rfl

/-! The matches of a run (R143 to R147) -/

/-- As clock steps are counted one by one, every number up to the last is that of one of them. -/
theorem exists_clockSteps_eq {who : Nat → Agent} {a b K : Nat} (hab : a ≤ b) (hpos : 0 < K) (hK : K ≤ clockSteps who a b) :
    ∃ j, a ≤ j ∧ j < b ∧ who j = .clock ∧ clockSteps who a (j + 1) = K := by
  induction b, hab using Nat.le_induction with
  | base => rw [clockSteps_self] at hK; omega
  | succ b hb ih =>
    by_cases hle : K ≤ clockSteps who a b
    · obtain ⟨j, hj, hjb, hclock⟩ := ih hle
      exact ⟨j, hj, by omega, hclock⟩
    · have hsucc := clockSteps_succ who hb
      by_cases hclock : who b = .clock
      · rw [if_pos hclock] at hsucc
        exact ⟨b, hb, Nat.lt_succ_self b, hclock, by omega⟩
      · rw [if_neg hclock] at hsucc
        omega

section
variable {who : Nat → Agent} {r : Nat → State} {a n p : Nat}

/-- Up to the clock step of the first match, that one alone is a match. -/
theorem matchStep_iff_of_le (hr : IsRun who r) (hp : divisor (r a).ps = some p) (han : a ≤ n)
    (hu : TimerUndisturbed who r a n) (hle : clockSteps who a (n + 1) ≤ clocksToMatch p (r a)) :
    MatchStep r n ↔ who n = .clock ∧ clockSteps who a (n + 1) = clocksToMatch p (r a) := by
  rw [matchStep_iff_matchAt hr han hu]
  rw [clockSteps_succ who han] at hle ⊢
  refine and_congr_right fun hclock => ?_
  rw [if_pos hclock] at hle ⊢
  exact matchAt_iff_of_lt hp hle

/-- A match with none before it is the first match: had its clock step come, it would have been one. -/
theorem clockSteps_eq_of_first_matchStep (hr : IsRun who r) (hp : divisor (r a).ps = some p) (han : a ≤ n)
    (hu : TimerUndisturbed who r a n) (hmatch : MatchStep r n) (hnone : ∀ j, a ≤ j → j < n → ¬MatchStep r j) :
    clockSteps who a (n + 1) = clocksToMatch p (r a) := by
  by_cases hle : clockSteps who a (n + 1) ≤ clocksToMatch p (r a)
  · exact ((matchStep_iff_of_le hr hp han hu hle).mp hmatch).2
  · have hclock := ((matchStep_iff hr n).mp hmatch).1
    have hsucc := clockSteps_succ who han
    rw [if_pos hclock] at hsucc
    obtain ⟨j, hj, hjn, hclockj, heq⟩ :=
      exists_clockSteps_eq (who := who) (K := clocksToMatch p (r a)) han (clocksToMatch_pos (divisor_dvd hp).1 _) (by omega)
    have huj : TimerUndisturbed who r a j := fun k hk hkj => hu k hk (hkj.trans hjn)
    exact absurd ((matchStep_iff_of_le hr hp hj huj heq.le).mpr ⟨hclockj, heq⟩) (hnone j hj hjn)

end

/-- Right after a match the next is one period away: the divider stands at a multiple of the factor, and the counter at 0 or,
free-running, just past the threshold. -/
theorem clocksToMatch_clk_of_match {s : State} {p : Nat} (hp : divisor s.ps = some p) (hmatch : MatchAt s 0) :
    clocksToMatch p (clk s) = if s.ctc = true then matchSpacing s.ocr p else freeRunSpacing p := by
  obtain ⟨htick, hcount⟩ : ticksAt s.ps (s.psc + 1) = true ∧ s.tcnt = s.ocr := (matchAt_iff s 0).mp hmatch
  have hphase : (clk s).psc.toNat % p = 0 := by
    have hdvd : (s.psc.toNat + 1) % p = 0 := of_decide_eq_true ((ticksAt_clks hp 0).symm.trans htick)
    rw [show (clk s).psc.toNat = (s.psc.toNat + 1) % 1024 from clks_psc 1 s, Nat.mod_mod_of_dvd _ (divisor_dvd hp).2, hdvd]
  have hticks : ticksToMatch (clk s) = if s.ctc = true then s.ocr.toNat else 65535 := by
    rw [ticksToMatch, clk_ocr, clk_tcnt, if_pos htick, hcount]
    cases s.ctc with
    | true => simp
    | false => simp
  rw [clocksToMatch, hphase, hticks, matchSpacing, freeRunSpacing, Nat.sub_zero, Nat.add_comm]
  split <;> exact (Nat.succ_mul ..).symm

/-- From one match of a run to the next is one period: after the clock step of the first, the second is the first match. -/
theorem matchStep_after_matchStep {who : Nat → Agent} {r : Nat → State} {m n p : Nat} (hr : IsRun who r)
    (hp : divisor (r m).ps = some p) (hmatch : MatchStep r m) (hmn : m < n) (hu : TimerUndisturbed who r (m + 1) n) :
    let c := clockSteps who (m + 1) (n + 1)
    let spacing := if (r m).ctc = true then matchSpacing (r m).ocr p else freeRunSpacing p
    (c ≤ spacing → (MatchStep r n ↔ who n = .clock ∧ c = spacing)) ∧
    (MatchStep r n → (∀ j, m < j → j < n → ¬MatchStep r j) → c = spacing) := by
  obtain ⟨hclock, hat⟩ := (matchStep_iff hr m).mp hmatch
  have hnext : r (m + 1) = clk (r m) := by
    have hstep := hr m
    rw [AgentSteps, hclock] at hstep
    exact (Host.Outcome.next.inj hstep).symm
  have hp' : divisor (r (m + 1)).ps = some p := by rw [hnext, clk_ps, hp]
  dsimp only
  rw [← clocksToMatch_clk_of_match hp hat, ← hnext]
  exact ⟨matchStep_iff_of_le hr hp' hmn hu, clockSteps_eq_of_first_matchStep hr hp' hmn hu⟩

/-- Settles O44: the period from a match to the next, in reset-on-match mode. -/
theorem matchesAreOnePeriodApart : Obligations.MatchesAreOnePeriodApart := by
  unfold Obligations.MatchesAreOnePeriodApart
  intro who r m n p hr hctc hp hmatch hmn hu
  have hperiod := matchStep_after_matchStep hr hp hmatch hmn hu
  rwa [if_pos hctc] at hperiod

/-- Settles O45: the period from a match to the next, free-running. -/
theorem freeRunningMatchesEvery65536Ticks : Obligations.FreeRunningMatchesEvery65536Ticks := by
  unfold Obligations.FreeRunningMatchesEvery65536Ticks
  intro who r m n p hr hctc hp hmatch hmn hu
  have hperiod := matchStep_after_matchStep hr hp hmatch hmn hu
  rwa [if_neg (by simp [hctc])] at hperiod

/-- Settles O46: `clocksToMatch` with its count of ticks written out. -/
theorem firstMatchEdge : Obligations.FirstMatchEdge := by
  unfold Obligations.FirstMatchEdge
  intro who r n p hr hp hu
  have hmod := Nat.mod_lt (r 0).psc.toNat (divisor_dvd hp).1
  dsimp only
  rw [← ticksToMatch_eq, ← clocksToMatch]
  exact ⟨by omega, matchStep_iff_of_le hr hp (Nat.zero_le n) hu⟩

/-! A match while one is pending (R148) -/

/-- A clock step does the same whether a match is pending or not, and a pending one stays. -/
theorem clk_with_pending (s : State) : clk { s with ocf := true } = { clk s with ocf := true } := by
  rcases clk_cases s with ⟨ht, hc⟩ | ⟨ht, hne, hc⟩ | ⟨ht, heq, hc⟩ <;> rw [hc]
  · exact clk_of_no_tick ht
  · exact clk_of_counting_tick (s := { s with ocf := true }) ht hne
  · exact clk_of_matching_tick (s := { s with ocf := true }) ht heq

/-- Settles O48: after a match the flag is set, so setting it changes nothing. -/
theorem matchesMerge : Obligations.MatchesMerge := by
  unfold Obligations.MatchesMerge
  refine fun s => ⟨clk_with_pending s, fun hmatch => ?_⟩
  have hocf : (clk s).ocf = true := (clks_succ_ocf 0 s).mpr (.inr hmatch)
  rw [clk_with_pending, ← hocf]

/-! Acceptances against matches and resets (R148, 60_exceptions R197) -/

/-- No command appends an acceptance, a match or a reset. -/
theorem countEvents_exec {i : Instr} {s t : State} (h : exec i s = .next t) :
    countEvents isAccept t = countEvents isAccept s ∧ countEvents isMatch t = countEvents isMatch s ∧
    countEvents isReset t = countEvents isReset s := by
  rcases exec_cases i s with ⟨_, h'⟩ | ⟨_, _, h'⟩ | ⟨_, _, _, h'⟩ | ⟨_, _, _, _, _, h'⟩ | ⟨_, h'⟩ | ⟨_, h'⟩ | ⟨_, _, h'⟩ |
    ⟨_, _, h'⟩ | ⟨_, h'⟩ | ⟨_, _, h'⟩ | ⟨_, _, h'⟩ | ⟨_, _, h'⟩ <;>
    obtain rfl := Host.Outcome.next.inj (h'.symm.trans h) <;>
    simp [countEvents, isAccept, isMatch, isReset]

/-- From `s` to `t` the acceptances, with the pending flag, grow by no more than the matches and resets. -/
def AcceptancesPaidFor (s t : State) : Prop :=
  countEvents isAccept t + t.ocf.toNat + (countEvents isMatch s + countEvents isReset s) ≤
    countEvents isAccept s + s.ocf.toNat + (countEvents isMatch t + countEvents isReset t)

/-- A step that appends one event: an acceptance must use the flag up, and setting it must come with a match or a reset. -/
theorem acceptancesPaidFor_emit {s u : State} (e : Event) (htrace : u.trace = s.trace)
    (h : u.ocf.toNat + (isAccept e).toNat ≤ s.ocf.toNat + (isMatch e).toNat + (isReset e).toNat) :
    AcceptancesPaidFor s (emit e u) := by
  simp only [AcceptancesPaidFor, countEvents_emit, emit_ocf, countEvents_congr _ htrace]
  omega

/-- A clock step sets the flag only with a match. -/
theorem acceptancesPaidFor_clk (s : State) : AcceptancesPaidFor s (clk s) := by
  rcases clk_cases s with ⟨_, hc⟩ | ⟨_, _, hc⟩ | ⟨_, _, hc⟩ <;> rw [hc]
  · exact Nat.le_refl _
  · exact Nat.le_refl _
  · exact acceptancesPaidFor_emit _ rfl (Nat.le_add_left 1 _)

/-- A reset may draw a set flag. -/
theorem acceptancesPaidFor_resetStep (s : State) : AcceptancesPaidFor s (resetStep s) :=
  acceptancesPaidFor_emit _ rfl ((Bool.toNat_le _).trans (Nat.le_add_left 1 _))

/-- An acceptance that acknowledges uses the flag up. -/
theorem acceptancesPaidFor_enterHandler {s : State} (hack : s.params.ackOnEntry = true) (h : acceptOk s = true) :
    AcceptancesPaidFor s (enterHandler s) := by
  obtain ⟨-, -, -, -, -, hocf⟩ := (acceptOk_iff s).mp h
  refine acceptancesPaidFor_emit _ rfl ?_
  rw [hack, hocf]
  exact Nat.le_refl 1

/-- A command sets no flag and appends none of the three events. -/
theorem acceptancesPaidFor_exec {i : Instr} {s t : State} (h : exec i s = .next t) : AcceptancesPaidFor s t := by
  obtain ⟨haccept, hmatch, hreset⟩ := countEvents_exec h
  have hflag : t.ocf.toNat ≤ s.ocf.toNat := Bool.toNat_le_toNat (ocf_of_exec h)
  rw [AcceptancesPaidFor, haccept, hmatch, hreset]
  omega

theorem acceptancesPaidFor_of_agentStep {a : Agent} {s t : State} (hack : s.params.ackOnEntry = true)
    (h : agentStep a s = .next t) : AcceptancesPaidFor s t := by
  rcases agentStep_cases h with ⟨_, rfl⟩ | ⟨_, rfl⟩ | ⟨_, ⟨haccept, rfl⟩ | ⟨_, _, rfl⟩ | ⟨_, _, _, _, ⟨_, _, rfl⟩ | ⟨_, _, hx⟩⟩⟩
  · exact acceptancesPaidFor_clk s
  · exact acceptancesPaidFor_resetStep s
  · exact acceptancesPaidFor_enterHandler hack haccept
  · exact Nat.le_refl _
  · exact acceptancesPaidFor_emit _ rfl (Nat.le_refl _)
  · exact acceptancesPaidFor_exec hx

/-- Settles O37: taking the turn touches neither the trace nor the flag, and every agent's step pays for its acceptance. -/
theorem acceptancesNeverOutrunMatches : Obligations.AcceptancesNeverOutrunMatches := by
  unfold Obligations.AcceptancesNeverOutrunMatches
  intro s t slack hack hstep hle
  have hpaid : AcceptancesPaidFor s t := acceptancesPaidFor_of_agentStep (s := takeTurn s) hack hstep
  obtain ⟨hparams, -⟩ := romAndParametersNeverChange.1 s t hstep
  rw [AcceptancesPaidFor] at hpaid
  exact ⟨hparams ▸ hack, by omega⟩

end Sys2Proof.Machine
end

section
/-! PROOFS. Choosing the threshold for a blink frequency (46_canonical_rom R162): rounding with halves up, and what the choice
answers where the clock, the frequency and the prescaler are legal (log 12). -/

namespace Sys2Proof.Machine

/-- Rounding to `n` takes the values from half below `n`, which it includes, to half above, which it does not
(92_eei_decisions D24). -/
theorem roundHalfUp_eq_iff (q : Rat) (n : Int) : roundHalfUp q = n ↔ (n : Rat) - 1 / 2 ≤ q ∧ q < (n : Rat) + 1 / 2 := by
  have hfloor : ⌊q + 1 / 2⌋ = n ↔ (n : Rat) ≤ q + 1 / 2 ∧ q + 1 / 2 < (n : Rat) + 1 := Int.floor_eq_iff
  refine hfloor.trans (and_congr sub_le_iff_le_add.symm ?_)
  rw [← lt_sub_iff_add_lt]
  norm_num [add_sub_assoc]

/-- A threshold plus 1 is the rounded quotient. -/
theorem thresholdFormula_eq_iff (clockHz : Rat) (factor : Nat) (blinkHz : Rat) (t : Nat) :
    thresholdFormula clockHz factor blinkHz = t ↔
      (t : Rat) + 1 - 1 / 2 ≤ clockHz / factor / (2 * blinkHz) ∧ clockHz / factor / (2 * blinkHz) < (t : Rat) + 1 + 1 / 2 := by
  rw [thresholdFormula, sub_eq_iff_eq_add, roundHalfUp_eq_iff]
  push_cast
  rfl

/-- With a positive clock and frequency and a running prescaler, only the bounds of the threshold are left to check. -/
theorem chooseThreshold_eq {p : Config.Params} {blinkHz : Rat} {factor : Nat} (hclock : 0 < p.clockHz)
    (hblink : 0 < blinkHz) (hfactor : prescaler p = some factor) :
    chooseThreshold p blinkHz =
      if 1 ≤ thresholdFormula p.clockHz factor blinkHz ∧ thresholdFormula p.clockHz factor blinkHz ≤ 65535
      then .ok (thresholdFormula p.clockHz factor blinkHz).toNat else .error .thresholdOutOfRange := by
  simp only [chooseThreshold, if_neg hclock.not_ge, if_neg hblink.not_ge, hfactor]

/-- Settles O59: within the bounds the choice is the formula's value, which fixes the half-way bounds; outside them it is
refused. -/
theorem chosenThresholdIsTheNearest : Obligations.ChosenThresholdIsTheNearest := by
  unfold Obligations.ChosenThresholdIsTheNearest
  intro p blinkHz factor hclock hblink hfactor
  dsimp only
  simp only [← thresholdFormula_eq_iff, chooseThreshold_eq hclock hblink hfactor]
  split
  case isTrue hfits =>
    refine ⟨fun t => ?_, fun hrefused => absurd rfl (hrefused _)⟩
    rw [Except.ok.injEq]
    omega
  case isFalse hfits =>
    refine ⟨fun t => iff_of_false nofun fun ⟨hrange, heq⟩ => hfits ?_, fun _ => rfl⟩
    omega

end Sys2Proof.Machine
end

section
/-! PROOFS. Interrupts and faults (60_exceptions): which step of the sequencer is enabled (R195), acceptance and return (R196 to
R200), the level `ISV` with its returns counted against acceptances (R199, R206), the writers of `OCF` (R192, R193), fault entry
and the halt (R203, R204), and the consistency of the flags with the fault record. -/

namespace Sys2Proof.Machine

/-! What keeps the sequencer's steps off (R195, R199, R204) -/

theorem acceptOk_of_inService {s : State} (h : s.isv = true) : acceptOk s = false := by simp [acceptOk, h]

theorem acceptOk_of_faulted {s : State} (h : s.flt = true) : acceptOk s = false := by simp [acceptOk, h]

theorem execOk_of_faulted {s : State} (h : s.flt = true) : execOk s = false := by simp [execOk, h]

/-! The level and the returns (R198, R199, R206) -/

/-- The level is as before, and so are the counts of the events that change it. -/
structure SameLevel (s t : State) : Prop where
  isv : t.isv = s.isv
  returns : countEvents isReti t = countEvents isReti s
  accepts : countEvents isAccept t = countEvents isAccept s

theorem sameLevel_of_trace_eq {s t : State} (hisv : t.isv = s.isv) (htrace : t.trace = s.trace) : SameLevel s t :=
  ⟨hisv, countEvents_congr _ htrace, countEvents_congr _ htrace⟩

theorem countEvents_of_trace_append {s t : State} {e : Event} (htrace : t.trace = s.trace ++ [e]) (kind : Event → Bool) :
    countEvents kind t = countEvents kind s + (kind e).toNat :=
  (countEvents_congr kind (t := t) (s := emit e s) htrace).trans (countEvents_emit kind e s)

theorem sameLevel_of_trace_append {s t : State} (e : Event) (hisv : t.isv = s.isv) (htrace : t.trace = s.trace ++ [e])
    (hreti : isReti e = false) (haccept : isAccept e = false) : SameLevel s t :=
  ⟨hisv, by rw [countEvents_of_trace_append htrace, hreti]; rfl, by rw [countEvents_of_trace_append htrace, haccept]; rfl⟩

theorem sameLevel_clk (s : State) : SameLevel s (clk s) := by
  rcases clk_cases s with ⟨_, hc⟩ | ⟨_, _, hc⟩ | ⟨_, _, hc⟩ <;> rw [hc]
  · exact sameLevel_of_trace_eq rfl rfl
  · exact sameLevel_of_trace_eq rfl rfl
  · exact sameLevel_of_trace_append _ rfl rfl rfl rfl

/-- The one command that changes the level is a `RETI` in the handler. -/
theorem sameLevel_or_leaveHandler_of_exec {i : Instr} {s t : State} (h : exec i s = .next t) :
    SameLevel s t ∨ (i = .reti ∧ s.isv = true ∧ t = leaveHandler s) := by
  rcases exec_cases i s with ⟨_, h'⟩ | ⟨_, _, h'⟩ | ⟨_, _, _, h'⟩ | ⟨_, _, _, _, _, h'⟩ | ⟨_, h'⟩ | ⟨_, h'⟩ | ⟨_, _, h'⟩ |
    ⟨_, _, h'⟩ | ⟨_, h'⟩ | ⟨_, _, h'⟩ | ⟨hi, hisv, h'⟩ | ⟨_, _, h'⟩ <;>
    obtain rfl := Host.Outcome.next.inj (h'.symm.trans h)
  · exact .inl (sameLevel_of_trace_append _ rfl rfl rfl rfl)
  · exact .inl (sameLevel_of_trace_append _ rfl rfl rfl rfl)
  · exact .inl (sameLevel_of_trace_append _ (regWrite_isv ..) (congrArg (· ++ _) (regWrite_trace ..)) rfl rfl)
  · exact .inl (sameLevel_of_trace_append _ (regWrite_isv ..) (congrArg (· ++ _) (regWrite_trace ..)) rfl rfl)
  · exact .inl (sameLevel_of_trace_append _ rfl rfl rfl rfl)
  · exact .inl (sameLevel_of_trace_append _ rfl rfl rfl rfl)
  · exact .inl (sameLevel_of_trace_append _ rfl rfl rfl rfl)
  · exact .inl (sameLevel_of_trace_append _ rfl rfl rfl rfl)
  · exact .inl (sameLevel_of_trace_eq rfl rfl)
  · exact .inl (sameLevel_of_trace_eq rfl rfl)
  · exact .inr ⟨hi, hisv, rfl⟩
  · exact .inl (sameLevel_of_trace_append _ rfl rfl rfl rfl)

/-- What a step can do to the level: keep it, raise it by an acceptance, clear it by a reset or by a return. -/
theorem steps_level_cases {s t : State} (h : Steps s t) :
    SameLevel s t ∨
    (Accepts s ∧ t = enterHandler (takeTurn s)) ∨
    (nextAgent s = .reset ∧ t = resetStep (takeTurn s)) ∨
    (Executes s .reti ∧ s.isv = true ∧ t = leaveHandler (takeTurn s)) := by
  have hturn {u : State} (hu : SameLevel (takeTurn s) u) : SameLevel s u := ⟨hu.isv, hu.returns, hu.accepts⟩
  rcases steps_cases h with ⟨_, rfl⟩ | hreset | haccept | ⟨_, _, _, rfl⟩ | ⟨_, _, _, _, _, _, rfl⟩ | ⟨i, hi, hx⟩
  · exact .inl (hturn (sameLevel_clk _))
  · exact .inr (.inr (.inl hreset))
  · exact .inr (.inl haccept)
  · exact .inl (sameLevel_of_trace_eq rfl rfl)
  · exact .inl (sameLevel_of_trace_append _ rfl rfl rfl rfl)
  · rcases sameLevel_or_leaveHandler_of_exec hx with hsame | ⟨rfl, hisv, ht⟩
    · exact .inl (hturn hsame)
    · exact .inr (.inr (.inr ⟨hi, hisv, ht⟩))

/-- Settles O34: of the steps that change the level, an acceptance sets it, a reset and a return clear it. -/
theorem levelChangesOnlyByAcceptReturnOrReset : Obligations.LevelChangesOnlyByAcceptReturnOrReset := by
  unfold Obligations.LevelChangesOnlyByAcceptReturnOrReset
  intro s t h
  refine ⟨acceptOk_of_inService, ?_⟩
  rcases steps_level_cases h with hsame | ⟨haccept, rfl⟩ | ⟨hreset, rfl⟩ | ⟨hreti, _, rfl⟩
  · rw [hsame.isv]
    exact ⟨fun hs ht => absurd (hs.symm.trans ht) Bool.false_ne_true, fun hs ht => absurd (ht.symm.trans hs) Bool.false_ne_true⟩
  · exact ⟨fun _ _ => ⟨haccept, rfl, rfl⟩, fun _ => nofun⟩
  · exact ⟨fun _ => nofun, fun _ _ => .inl hreset⟩
  · exact ⟨fun _ => nofun, fun _ _ => .inr ⟨hreti, rfl⟩⟩

/-- Settles O39: an acceptance pays for the level it sets, a return uses that level up, a reset drops it. -/
theorem returnsNeverOutrunAcceptances : Obligations.ReturnsNeverOutrunAcceptances := by
  unfold Obligations.ReturnsNeverOutrunAcceptances
  intro s t slack h hle
  rcases steps_level_cases h with hsame | ⟨_, rfl⟩ | ⟨_, rfl⟩ | ⟨_, hisv, rfl⟩
  · rwa [hsame.isv, hsame.returns, hsame.accepts]
  · simp only [countEvents_of_trace_append (s := s) (enterHandler_trace (takeTurn s)), enterHandler_isv, isReti, isAccept,
      Bool.toNat_true, Bool.toNat_false]
    omega
  · simp only [countEvents_of_trace_append (s := s) (resetStep_trace (takeTurn s)), resetStep_isv, isReti, isAccept,
      Bool.toNat_false]
    omega
  · rw [hisv, Bool.toNat_true] at hle
    simp only [countEvents_of_trace_append (s := s) (leaveHandler_trace (takeTurn s)), leaveHandler_isv, isReti, isAccept,
      Bool.toNat_true, Bool.toNat_false]
    omega

/-! Flags and fault record (R203, R204, R211) -/

/-- The invariant of the flags speaks of the fault record and of five elements of the sequencer alone. -/
theorem FlagsConsistent.congr {s t : State} (hs : FlagsConsistent s) (hfault : SameFaultRecord s t)
    (h : t.pc = s.pc ∧ t.gie = s.gie ∧ t.isv = s.isv ∧ t.eip = s.eip ∧ t.slp = s.slp) : FlagsConsistent t := by
  obtain ⟨hflt, hfc, hfpc⟩ := hfault
  obtain ⟨hpc, hgie, hisv, heip, hslp⟩ := h
  constructor <;> simp only [hflt, hfc, hfpc, hpc, hgie, hisv, heip, hslp]
  exacts [hs.noCauseUnlessFaulted, hs.causeWhenFaulted, hs.faultAtPc, hs.delayOnlyEnabled, hs.sleepsAtNormalLevel,
    hs.returnFaultLevel, hs.waitFaultLevel]

theorem FaultCause.code_bounds (c : FaultCause) : 1 ≤ c.code.toNat ∧ c.code.toNat ≤ 5 := by cases c <;> decide

theorem FaultCause.eq_of_code_four {c : FaultCause} : c.code = 4 → c = .returnOutsideHandler := by cases c <;> decide

theorem FaultCause.eq_of_code_five {c : FaultCause} : c.code = 5 → c = .waitInsideHandler := by cases c <;> decide

/-- A fault entered awake is consistent where its cause agrees with the level. -/
theorem flagsConsistent_raiseFault {c : FaultCause} {s : State} (hs : FlagsConsistent s) (hslp : s.slp = false)
    (hreturn : c = .returnOutsideHandler → s.isv = false) (hwait : c = .waitInsideHandler → s.isv = true) :
    FlagsConsistent (raiseFault c s) where
  noCauseUnlessFaulted := nofun
  causeWhenFaulted _ := c.code_bounds
  faultAtPc _ := rfl
  delayOnlyEnabled := hs.delayOnlyEnabled
  sleepsAtNormalLevel h := absurd (hslp.symm.trans h) Bool.false_ne_true
  returnFaultLevel _ h := hreturn (FaultCause.eq_of_code_four h)
  waitFaultLevel _ h := hwait (FaultCause.eq_of_code_five h)

/-- A state not faulted, with no cause recorded, is consistent where `EIP` comes with `GIE` and the sleep is as after `WAIT`. -/
theorem flagsConsistent_of_unfaulted {s : State} (hflt : s.flt = false) (hfc : s.fc = 0) (hdelay : s.eip = true → s.gie = true)
    (hsleep : s.slp = true → s.isv = false ∧ s.eip = false) : FlagsConsistent s where
  noCauseUnlessFaulted _ := hfc
  causeWhenFaulted h := absurd (hflt.symm.trans h) Bool.false_ne_true
  faultAtPc h := absurd (hflt.symm.trans h) Bool.false_ne_true
  delayOnlyEnabled := hdelay
  sleepsAtNormalLevel h := ⟨(hsleep h).1, (hsleep h).2, hflt⟩
  returnFaultLevel h := absurd (hflt.symm.trans h) Bool.false_ne_true
  waitFaultLevel h := absurd (hflt.symm.trans h) Bool.false_ne_true

/-- A command executed in a consistent state, neither faulted nor asleep, leaves a consistent one: it clears `EIP`, or it is
`EINT`, or it enters a fault. -/
theorem flagsConsistent_of_exec {i : Instr} {s t : State} (hs : FlagsConsistent s) (he : execOk s = true)
    (h : exec i s = .next t) : FlagsConsistent t := by
  obtain ⟨hflt, hslp, -⟩ := (execOk_iff s).mp he
  have hfc := hs.noCauseUnlessFaulted hflt
  rcases exec_cases i s with ⟨_, h'⟩ | ⟨_, _, h'⟩ | ⟨reg, v, _, h'⟩ | ⟨_, reg, _, new, _, h'⟩ | ⟨_, h'⟩ | ⟨_, h'⟩ |
    ⟨_, hisv, h'⟩ | ⟨_, hisv, h'⟩ | ⟨_, h'⟩ | ⟨_, _, h'⟩ | ⟨_, _, h'⟩ | ⟨_, hisv, h'⟩ <;>
    obtain rfl := Host.Outcome.next.inj (h'.symm.trans h)
  · exact flagsConsistent_raiseFault hs hslp nofun nofun
  · exact flagsConsistent_of_cleared hflt hfc hslp rfl
  · exact flagsConsistent_of_cleared (by simpa using hflt) (by simpa using hfc) (by simpa using hslp) rfl
  · exact flagsConsistent_of_cleared (by simpa using hflt) (by simpa using hfc) (by simpa using hslp) rfl
  · exact flagsConsistent_of_cleared hflt hfc hslp rfl
  · exact flagsConsistent_of_unfaulted hflt hfc (fun _ => rfl) fun h => absurd (hslp.symm.trans h) Bool.false_ne_true
  · exact flagsConsistent_raiseFault hs hslp nofun fun _ => hisv
  · exact flagsConsistent_of_unfaulted hflt hfc nofun fun _ => ⟨hisv, rfl⟩
  · exact flagsConsistent_of_cleared hflt hfc hslp rfl
  · exact flagsConsistent_of_cleared hflt hfc hslp rfl
  · exact flagsConsistent_of_cleared hflt hfc hslp rfl
  · exact flagsConsistent_raiseFault hs hslp (fun _ => hisv) nofun

/-- Settles O49: the clock leaves the flags, a reset and an acceptance clear them, a fault is entered awake; no step writes the
ROM. -/
theorem stepKeepsFlagsConsistent : Obligations.StepKeepsFlagsConsistent := by
  unfold Obligations.StepKeepsFlagsConsistent
  intro s t hs hrom h
  obtain ⟨hparams, hcells, -⟩ := romAndParametersNeverChange.1 s t h
  refine ⟨?_, by rwa [hparams, hcells]⟩
  have hturn : FlagsConsistent (takeTurn s) := hs.congr ⟨rfl, rfl, rfl⟩ ⟨rfl, rfl, rfl, rfl, rfl⟩
  rcases steps_cases h with ⟨_, rfl⟩ | ⟨_, rfl⟩ | ⟨⟨_, haccept⟩, rfl⟩ | ⟨_, _, _, rfl⟩ | ⟨_, he, _, why, _, _, rfl⟩ |
    ⟨i, ⟨_, he, _⟩, hx⟩
  · exact hturn.congr ⟨clk_flt _, clk_fc _, clk_fpc _⟩ ⟨clk_pc _, clk_gie _, clk_isv _, clk_eip _, clk_slp _⟩
  · exact flagsConsistent_of_cleared rfl rfl rfl rfl
  · obtain ⟨hflt, -⟩ := (acceptOk_iff s).mp haccept
    exact flagsConsistent_of_cleared hflt (hs.noCauseUnlessFaulted hflt) rfl rfl
  · exact hturn
  · obtain ⟨-, hslp, -⟩ := (execOk_iff s).mp he
    exact flagsConsistent_raiseFault hturn hslp (by cases why <;> nofun) (by cases why <;> nofun)
  · exact flagsConsistent_of_exec hturn he hx

/-! Acceptance and return (R195 to R200) -/

/-- Settles O30: the definitions as equivalences, the two enabled steps, and the two ways for neither to be enabled. -/
theorem sequencerStepEnabling : Obligations.SequencerStepEnabling := by
  unfold Obligations.SequencerStepEnabling
  intro s
  refine ⟨Bool.and_eq_true_iff, acceptOk_iff s, ?_, sequencerStep_of_acceptOk, sequencerStep_of_execOk, ?_⟩
  · rw [execOk_iff, Bool.not_eq_true]
  · cases hflt : s.flt with
    | true => exact iff_of_true ⟨acceptOk_of_faulted hflt, execOk_of_faulted hflt⟩ (.inl rfl)
    | false => cases hslp : s.slp <;> cases haccept : acceptOk s <;> simp [execOk, hflt, hslp, haccept]

/-- An acceptance leaves its own match pending exactly where it does not acknowledge (R197). -/
theorem enterHandler_ocf_of_acceptOk {s : State} (h : acceptOk s = true) :
    (enterHandler s).ocf = !s.params.ackOnEntry := by
  obtain ⟨-, -, -, -, -, hocf⟩ := (acceptOk_iff s).mp h
  rw [enterHandler_ocf, hocf]
  cases s.params.ackOnEntry <;> rfl

/-- Settles O31: the state after the acceptance, element by element. -/
theorem acceptanceEntersTheHandler : Obligations.AcceptanceEntersTheHandler := by
  unfold Obligations.AcceptanceEntersTheHandler
  intro s h
  exact ⟨enterHandler s, sequencerStep_of_acceptOk h, rfl, rfl, rfl, rfl, rfl, rfl, enterHandler_ocf_of_acceptOk h,
    fun _ hne => regRead_enterHandler s hne, rfl, rfl, rfl, ⟨rfl, rfl, rfl⟩, sameRom_of rfl rfl, rfl, rfl⟩

/-- Settles O32: what the return sets is what an acceptance requires (R195), and it goes back to the saved address. -/
theorem returnUndoesAcceptance : Obligations.ReturnUndoesAcceptance := by
  unfold Obligations.ReturnUndoesAcceptance
  intro s h
  obtain ⟨-, hgie, heip, hisv, -, -⟩ := (acceptOk_iff s).mp h
  exact ⟨enterHandler s, leaveHandler (enterHandler s), sequencerStep_of_acceptOk h, exec_reti_of_handler rfl, rfl,
    hisv.symm, hgie.symm, heip.symm, rfl, enterHandler_ocf_of_acceptOk h, rfl,
    fun reg hne => (regRead_leaveHandler _ reg).trans (regRead_enterHandler s hne), ⟨rfl, rfl, rfl⟩, rfl, sameRom_of rfl rfl⟩

/-- A match that is pending at a return is acceptable from then on, whatever clock steps follow. -/
theorem acceptOk_clks_leaveHandler {s : State} (hflt : s.flt = false) (hocie : s.ocie = true) (hocf : s.ocf = true) (n : Nat) :
    acceptOk (clks n (leaveHandler s)) = true := by
  have hpending : (clks n (leaveHandler s)).ocf = true := clks_ocf n hocf
  simp [acceptOk_iff, clks_frame, hpending, hflt, hocie]

/-- Settles O33: the return leaves the match acceptable at the address returned to, and the clock moves neither. -/
theorem heldMatchIsServicedAfterReturn : Obligations.HeldMatchIsServicedAfterReturn := by
  unfold Obligations.HeldMatchIsServicedAfterReturn
  intro s n hflt hisv hocie hocf
  refine ⟨leaveHandler s, enterHandler (clks n (leaveHandler s)), exec_reti_of_handler hisv,
    sequencerStep_of_acceptOk (acceptOk_clks_leaveHandler hflt hocie hocf n), rfl, ?_, ?_⟩ <;> simp [clks_frame]

/-! The pending flag (R192, R193) -/

/-- The pending flag is bit 0 of what `TIFR` reads as. -/
theorem ocf_eq_of_regRead_tifr_eq {s t : State} (h : regRead t .tifr = regRead s .tifr) : t.ocf = s.ocf := by
  calc t.ocf = (regRead t .tifr).getLsbD 0 := (getLsbD_bitValue t.ocf 0).symm
    _ = (regRead s .tifr).getLsbD 0 := by rw [h]
    _ = s.ocf := getLsbD_bitValue s.ocf 0

/-- A clock step changes the flag only by a match, which sets it. -/
theorem ocf_clk_cases (s : State) : (clk s).ocf = s.ocf ∨
    ((clk s).ocf = true ∧ s.tcnt = s.ocr ∧ countEvents isMatch (clk s) = countEvents isMatch s + 1) := by
  rcases clk_cases s with ⟨_, hc⟩ | ⟨_, _, hc⟩ | ⟨_, heq, hc⟩ <;> rw [hc]
  · exact .inl rfl
  · exact .inl rfl
  · exact .inr ⟨rfl, heq, countEvents_emit ..⟩

/-- A command changes the flag only if it writes `TIFR`, and then it clears it. -/
theorem ocf_exec_cases {i : Instr} {s t : State} (h : exec i s = .next t) :
    t.ocf = s.ocf ∨ (t.ocf = false ∧ Writes i .tifr) := by
  by_cases hw : Writes i .tifr
  · cases hocf : t.ocf with
    | false => exact .inr ⟨rfl, hw⟩
    | true => exact .inl (ocf_of_exec h hocf).symm
  · exact .inl (ocf_eq_of_regRead_tifr_eq (regRead_exec_of_not_writes h hw))

/-- Settles O36: of the steps that change the flag, a match sets it, an acknowledgment and a write of `TIFR` clear it. -/
theorem pendingFlagWriters : Obligations.PendingFlagWriters := by
  unfold Obligations.PendingFlagWriters
  intro s t h hne
  rcases steps_cases h with ⟨hn, rfl⟩ | ⟨hn, _⟩ | ⟨ha, rfl⟩ | ⟨_, _, _, rfl⟩ | ⟨_, _, _, _, _, _, rfl⟩ | ⟨i, hi, hx⟩
  · rcases ocf_clk_cases (takeTurn s) with hsame | ⟨hset, heq, hcount⟩
    · exact absurd hsame hne
    · exact .inr (.inl ⟨hset, hn, heq, hcount⟩)
  · exact .inl hn
  · cases hack : s.params.ackOnEntry with
    | true => exact .inr (.inr ⟨if_pos hack, .inl ⟨ha, rfl⟩⟩)
    | false => exact absurd (by simp [hack]) hne
  · exact absurd rfl hne
  · exact absurd rfl hne
  · rcases ocf_exec_cases hx with hsame | ⟨hclear, hw⟩
    · exact absurd hsame hne
    · exact .inr (.inr ⟨hclear, .inr ⟨i, hi, hw⟩⟩)

/-! Faults (R203, R204) -/

/-- With the sequencer faulted, a step that is no reset is the clock's or the idle turn (log 4). -/
theorem steps_cases_of_faulted {s t : State} (h : Steps s t) (hflt : s.flt = true) (hreset : nextAgent s ≠ .reset) :
    t = clk (takeTurn s) ∨ (nextAgent s = .sequencer ∧ t = takeTurn s) := by
  have hno : execOk s ≠ true := by simp [execOk_of_faulted hflt]
  rcases steps_cases h with ⟨_, ht⟩ | ⟨hn, _⟩ | ⟨⟨_, ha⟩, _⟩ | ⟨hn, _, _, ht⟩ | ⟨_, he, _⟩ | ⟨_, ⟨_, he, _⟩, _⟩
  · exact .inl ht
  · exact absurd hn hreset
  · exact absurd ((acceptOk_of_faulted hflt).symm.trans ha) Bool.false_ne_true
  · exact .inr ⟨hn, ht⟩
  · exact absurd he hno
  · exact absurd he hno

/-- Settles O41: neither the clock nor the idle turn writes the sequencer or, but for `TCNT` and `TIFR`, the bank, on which the
pins depend. -/
theorem faultHaltsUntilReset : Obligations.FaultHaltsUntilReset := by
  unfold Obligations.FaultHaltsUntilReset
  intro s t h hflt hreset
  have hbank : ∀ reg, reg ≠ .tcnt → reg ≠ .tifr → regRead t reg = regRead s reg := fun reg hcount hflag => by
    rcases steps_cases_of_faulted h hflt hreset with rfl | ⟨_, rfl⟩
    · rw [regRead_clk _ hcount hflag, regRead_takeTurn]
    · exact regRead_takeTurn s reg
  have hpins : ∀ i, pin t i = pin s i := pin_congr (hbank .ddr nofun nofun) (hbank .port nofun nofun)
  rcases steps_cases_of_faulted h hflt hreset with rfl | ⟨hn, rfl⟩
  · exact ⟨⟨clk_flt _, clk_fc _, clk_fpc _⟩, clk_pc _, clk_gie _, clk_isv _, clk_eip _, clk_slp _, clk_dl _, clk_rpc _,
      hpins, hbank, fun _ => clk_psc _⟩
  · exact ⟨⟨rfl, rfl, rfl⟩, rfl, rfl, rfl, rfl, rfl, rfl, rfl, hpins, hbank, by simp [hn]⟩

/-- Settles O17: a command that names register 7 is not well formed. -/
theorem reservedRegisterEntersFault : Obligations.ReservedRegisterEntersFault := by
  unfold Obligations.ReservedRegisterEntersFault
  intro s imm i hi
  have hwf : i.wf = false := by
    simp only [List.mem_cons, List.not_mem_nil, or_false] at hi
    rcases hi with rfl | rfl | rfl | rfl | rfl <;> rfl
  exact ⟨_, exec_of_not_wf hwf s, entersFault_raiseFault .reservedRegister s⟩

/-- Settles O25: at the wrong level each of the two commands enters its fault. -/
theorem misplacedWaitAndRetiEnterFault : Obligations.MisplacedWaitAndRetiEnterFault := by
  unfold Obligations.MisplacedWaitAndRetiEnterFault
  exact fun s => ⟨fun h => ⟨_, exec_wait_of_handler h, entersFault_raiseFault .waitInsideHandler s⟩,
    fun h => ⟨_, exec_reti_of_normal h, entersFault_raiseFault .returnOutsideHandler s⟩⟩

end Sys2Proof.Machine
end

section
/-! PROOFS. Reset and hazards (70_reset): under NoOverrun every compare match is accepted exactly once (R240), and a wait that
only a reset ends (R244). -/

namespace Sys2Proof.Machine

open Sys2Proof.Config (Agent)

/-! Matches against acceptances under NoOverrun (R240) -/

/-- The premise NoOverrun reads only the matches and the acceptances. -/
theorem noOverrun_append_of_quiet {new : List Event} (haccept : new.countP isAccept = 0) (hmatch : new.countP isMatch = 0)
    (pending : Bool) (later : List Event) : NoOverrun pending (new ++ later) = NoOverrun pending later := by
  induction new with
  | nil => rfl
  | cons e rest ih =>
    rw [List.countP_cons, Nat.add_eq_zero_iff] at haccept hmatch
    refine Eq.trans ?_ (ih haccept.1 hmatch.1)
    cases e with
    | accept => exact absurd haccept.2 Nat.one_ne_zero
    | compareMatch => exact absurd hmatch.2 Nat.one_ne_zero
    | _ => rfl

/-- From `s` to `t` the trace grows by events of which, where NoOverrun holds from `s` on, each match is accepted or left
pending, and NoOverrun holds from `t` on. -/
def MatchesServed (s t : State) : Prop :=
  ∃ new : List Event, t.trace = s.trace ++ new ∧ ∀ later, NoOverrun s.ocf (new ++ later) = true →
    NoOverrun t.ocf later = true ∧ new.countP isMatch + s.ocf.toNat = new.countP isAccept + t.ocf.toNat

theorem MatchesServed.refl (s : State) : MatchesServed s s :=
  ⟨[], (List.append_nil _).symm, fun _ h => ⟨h, rfl⟩⟩

theorem MatchesServed.trans {s t u : State} (h : MatchesServed s t) (h' : MatchesServed t u) : MatchesServed s u := by
  obtain ⟨new, htrace, hserved⟩ := h
  obtain ⟨new', htrace', hserved'⟩ := h'
  refine ⟨new ++ new', by rw [htrace', htrace, List.append_assoc], fun later hlater => ?_⟩
  rw [List.append_assoc] at hlater
  obtain ⟨hmid, hcount⟩ := hserved _ hlater
  obtain ⟨hend, hcount'⟩ := hserved' _ hmid
  rw [List.countP_append, List.countP_append]
  exact ⟨hend, by omega⟩

/-- A step without a match or an acceptance that keeps the pending flag. -/
theorem matchesServed_of_quiet {a : Agent} {s t : State} (h : agentStep a s = .next t) (hocf : t.ocf = s.ocf)
    (haccept : countEvents isAccept t = countEvents isAccept s) (hmatch : countEvents isMatch t = countEvents isMatch s) :
    MatchesServed s t := by
  obtain ⟨new, -, htrace, -⟩ := traceIsOnlyObserved a s t h
  rw [countEvents, htrace, List.countP_append] at haccept hmatch
  have haccept' : new.countP isAccept = 0 := Nat.add_eq_left.mp haccept
  have hmatch' : new.countP isMatch = 0 := Nat.add_eq_left.mp hmatch
  refine ⟨new, htrace, fun later hlater => ⟨?_, by rw [haccept', hmatch', hocf]⟩⟩
  rwa [noOverrun_append_of_quiet haccept' hmatch', ← hocf] at hlater

/-- A match finds the flag clear, by NoOverrun, and sets it. -/
theorem matchesServed_clk (s : State) : MatchesServed s (clk s) := by
  rcases clk_cases s with ⟨_, hc⟩ | ⟨_, _, hc⟩ | ⟨_, _, hc⟩
  · exact matchesServed_of_quiet (a := .clock) rfl (by rw [hc]) (by rw [hc]; rfl) (by rw [hc]; rfl)
  · exact matchesServed_of_quiet (a := .clock) rfl (by rw [hc]) (by rw [hc]; rfl) (by rw [hc]; rfl)
  · rw [hc]
    refine ⟨[.compareMatch s.stamp], rfl, fun later hlater => ?_⟩
    obtain ⟨hclear, hrest⟩ : (!s.ocf) = true ∧ NoOverrun true later = true := Bool.and_eq_true_iff.mp hlater
    rw [Bool.not_eq_true'] at hclear
    exact ⟨hrest, by rw [hclear]; rfl⟩

/-- An acceptance finds the flag set (R195) and, acknowledging, clears it (R197). -/
theorem matchesServed_enterHandler {s : State} (hack : s.params.ackOnEntry = true) (h : acceptOk s = true) :
    MatchesServed s (enterHandler s) := by
  obtain ⟨-, -, -, -, -, hpending⟩ := (acceptOk_iff s).mp h
  have hclear : (enterHandler s).ocf = false := by rw [enterHandler_ocf_of_acceptOk h, hack]; rfl
  refine ⟨[.accept s.stamp], rfl, fun later hlater => ?_⟩
  rw [hpending, hclear]
  exact ⟨hlater, rfl⟩

theorem matchesServed_of_agentStep {a : Agent} {s t : State} (h : agentStep a s = .next t)
    (hack : s.params.ackOnEntry = true) (hreset : a ≠ .reset)
    (hquiet : a = .sequencer → ∀ i, Fetches s i → ¬Writes i .tifr) : MatchesServed s t := by
  rcases agentStep_cases h with ⟨_, rfl⟩ | ⟨ha, _⟩ |
    ⟨ha, ⟨haccept, rfl⟩ | ⟨_, _, rfl⟩ | ⟨_, he, w, hw, ⟨_, _, rfl⟩ | ⟨i, hd, hx⟩⟩⟩
  · exact matchesServed_clk s
  · exact absurd ha hreset
  · exact matchesServed_enterHandler hack haccept
  · exact MatchesServed.refl _
  · exact matchesServed_of_quiet h rfl (countEvents_emit ..) (countEvents_emit ..)
  · obtain ⟨haccept, hmatch, -⟩ := countEvents_exec hx
    have hkeeps := regRead_exec_of_not_writes hx (hquiet ha i ⟨he, w, hw, hd⟩)
    exact matchesServed_of_quiet h (ocf_eq_of_regRead_tifr_eq hkeeps) haccept hmatch

/-- Settles O38: every step of the run serves its matches, so by induction the whole run does. -/
theorem everyMatchIsAcceptedOnceWithoutOverrun : Obligations.EveryMatchIsAcceptedOnceWithoutOverrun := by
  unfold Obligations.EveryMatchIsAcceptedOnceWithoutOverrun
  intro who r n new hr hack hreset hquiet htrace hno
  have hrun : MatchesServed (r 0) (r n) := by
    clear htrace
    induction n with
    | zero => exact MatchesServed.refl _
    | succ n ih =>
      obtain ⟨hparams, -⟩ := romAndParametersNeverChange.2 who r hr n
      have hstep : MatchesServed (r n) (r (n + 1)) := matchesServed_of_agentStep (hr n) (by rw [hparams, hack])
        (hreset n n.lt_succ_self) (hquiet n n.lt_succ_self)
      exact (ih (fun k hk => hreset k (by omega)) (fun k hk => hquiet k (by omega))).trans hstep
  obtain ⟨new', htrace', hserved⟩ := hrun
  obtain rfl := List.append_cancel_left (htrace.symm.trans htrace')
  obtain ⟨-, hcount⟩ := hserved [] (by rwa [List.append_nil])
  exact hcount

/-! A wait that only a reset ends (R244) -/

/-- With neither of its steps enabled the sequencer only idles (log 4): a step that is no reset is that turn or the clock's. -/
theorem steps_cases_of_not_enabled {s t : State} (h : Steps s t) (ha : acceptOk s = false) (he : execOk s = false)
    (hreset : nextAgent s ≠ .reset) : t = clk (takeTurn s) ∨ t = takeTurn s := by
  rcases steps_cases h with ⟨_, ht⟩ | ⟨hn, _⟩ | ⟨⟨_, ha'⟩, _⟩ | ⟨_, _, _, ht⟩ | ⟨_, he', _⟩ | ⟨_, ⟨_, he', _⟩, _⟩
  · exact .inl ht
  · exact absurd hn hreset
  · exact absurd (ha.symm.trans ha') Bool.false_ne_true
  · exact .inr ht
  · exact absurd (he.symm.trans he') Bool.false_ne_true
  · exact absurd (he.symm.trans he') Bool.false_ne_true

theorem acceptOk_of_gate_closed {s : State} (h : s.gie = false ∨ s.ocie = false) : acceptOk s = false := by
  rcases h with h | h
  · exact acceptOk_of_gie_off h
  · simp [acceptOk, irq, h]

theorem acceptOk_of_no_match_pending {s : State} (h : s.ocf = false) : acceptOk s = false := by simp [acceptOk, irq, h]

/-- Settles O56: asleep and with no acceptance to come, the machine steps by its clock or idles; the clock writes none of the
sleep, the gate, `pc` and the prescaler, and, where that is stopped, not the flag. -/
theorem waitWithInterruptOffNeverEnds : Obligations.WaitWithInterruptOffNeverEnds := by
  unfold Obligations.WaitWithInterruptOffNeverEnds
  intro s t h hreset hslp
  refine ⟨fun hgate => ?_, fun hocf hstopped => ?_⟩
  · rcases steps_cases_of_not_enabled h (acceptOk_of_gate_closed hgate) (execOk_of_asleep hslp) hreset with rfl | rfl
    · rw [clk_slp, clk_gie, clk_ocie, clk_pc]
      exact ⟨hslp, hgate, rfl⟩
    · exact ⟨hslp, hgate, rfl⟩
  · rcases steps_cases_of_not_enabled h (acceptOk_of_no_match_pending hocf) (execOk_of_asleep hslp) hreset with rfl | rfl
    · obtain ⟨-, hflag, -⟩ := stoppedTimerNeverTicks (takeTurn s) 1 hstopped
      rw [clk_slp, clk_ps, clk_pc]
      exact ⟨hslp, hflag.trans hocf, rfl, rfl⟩
    · exact ⟨hslp, hocf, rfl, rfl⟩

end Sys2Proof.Machine
end
